-- ==== Sys2Proof/Word.lean ====
section
/-! DEFINITION. The widths of the core: words, bytes, register numbers and the two six-bit codes
(00_scope.md R4, R5; 30_encoding.md R71). -/

namespace Sys2Proof

/-- A 32-bit word: register values, instruction words, ALU results, incrPC (R4 `XLEN`, R5).
`+` and `-` on it are modulo 2^32 (R5). -/
abbrev Word := BitVec 32

/-- The contents of one MainMemory cell (R50). -/
abbrev Byte := BitVec 8

/-- A register number 0..31 (R4 `NREGS`, R21, R71). -/
abbrev RegIdx := BitVec 5

/-- The opcode field, bits [31:26] (R71). -/
abbrev Opcode := BitVec 6

/-- The function code field, bits [5:0] of an R-format word (R71). -/
abbrev Funct := BitVec 6

end Sys2Proof
end

