-- ==== Sys2Proof/Config.lean ====
section
/-! DEFINITION. What one instance of the core fixes before reset (00_scope.md R4, 10_state.md R40):
the open parameters START_PC, MEM_SIZE and MEM_INIT as a record, the record of this instance as a
constant without a body, the fixed register seed RF_INIT, and the model's one free value. -/

namespace Sys2Proof

/-- The open parameters of R4. `memTop` is MEM_SIZE - 1, so that every value of it is a legal size
(1 to 2^32). `memInit` lists MEM_INIT from address 0 up; a trailing run of zero bytes need not be
written out, so that every seed function has such a list (DESIGN CHOICE, log entry 3). -/
structure Params where
  startPC : Word
  memTop  : Word
  memInit : List Byte
  deriving DecidableEq, Repr, Inhabited

/-- MEM_SIZE (R4, R50). -/
def Params.memSize (p : Params) : Nat := p.memTop.toNat + 1

/-- MEM_INIT[a] (R4, R50). -/
def Params.seed (p : Params) (a : Nat) : Byte := p.memInit.getD a 0

/-- The parameters of the instance that `State.reset` is the reset state of. OPEN in the spec (R4), so
it has no body: a statement about it holds for every choice (log entry 2). -/
opaque Config.params : Params

/-- RF_INIT (R4, R231): `x[0] = 0`, `x[i] = 0x100 + i`. -/
def Config.rfInit (i : Nat) : Word := if i = 0 then 0 else BitVec.ofNat 32 (0x100 + i)

/-- FREE VALUE: what ID copies into ID/EX.incrPC when it decodes a non-zero word while IF/ID.incrPC is
`NONE`. R107 says no run meets this case and gives it no value; the argument is the cycle counter
(log entry 9). -/
opaque Config.freeIncrPC : Word → Word

end Sys2Proof
end

