-- ==== Sys2Proof/Machine/State.lean ====
section
/-! DEFINITION. The state of the core as plain data (10_state.md R20 to R36), the environment's side of
its ports (R37, R38), the reasons a step can stop, and the reset state (70_reset_and_hazards.md R231).
`Option` is the spec's `Opt<T>`: `none` is `NA` (00_scope.md R6), and `none` in IF/ID.incrPC is `NONE`.
A `Bool` is a one-bit field, `true` being 1. -/

namespace Sys2Proof.Machine

/-- Why a step stops without a next state: never. The core has no such event: the spec's four faults
halt the core in a state the spec gives (R205), so they are next states (log entry 8), and a halted
core idles (R207). No constructor, hence safe: nothing raises it. -/
inductive Fault where
  deriving DecidableEq, Repr

/-- Why an instruction has no meaning. -/
inductive Refusal where
  /-- Raised by an arm of `exec` for an instruction the model gives no meaning yet, by its mnemonic; safe.
  No arm raises it: all nine rows have their meaning. -/
  | notModelled (mnemonic : String)
  deriving DecidableEq, Repr

/-- The stage named in an InconsistentControl record (R200). -/
inductive FaultStage where
  | ex | wb
  deriving DecidableEq, Repr

/-- The fault record `{code, info}` (R200, R35); the code is `FaultRecord.code`, the info the argument. -/
inductive FaultRecord where
  /-- Raised by ID, info bits [31:26] of the word (R201). -/
  | decodeError (opcode : Opcode)
  /-- Raised by ID, info bits [5:0] of the word (R202). -/
  | unknownFunction (funct : Funct)
  /-- Raised by MEM, info the address (R203). -/
  | memoryAddressError (address : Word)
  /-- Raised by EX or WB, info the stage (R204). -/
  | inconsistentControl (stage : FaultStage)
  deriving DecidableEq, Repr

/-- The RegisterFile: 32 words (R21). -/
abbrev RegFile := Vector Word 32

/-- `aluOp`, domain 0 and 2 (R27). -/
inductive AluOp where
  /-- 0: effective-address add. -/
  | effectiveAddress
  /-- 2: "ALU decides via function code". -/
  | byFunction
  deriving DecidableEq, Repr

/-- The `ControlSignals` record (R27). -/
structure ControlSignals where
  regWrite : Bool
  regDest  : Option Bool
  memToReg : Option Bool
  memRead  : Bool
  memWrite : Bool
  aluSrc   : Bool
  branch   : Bool
  aluOp    : AluOp
  deriving DecidableEq, Repr

/-- A pipeline register's control field: the no-op sentinel or a record (R6). -/
inductive StageCtrl (α : Type) where
  | noOp
  | active (signals : α)
  deriving DecidableEq, Repr

/-- IF/ID (R29). -/
structure IFID where
  instruction : Word
  incrPC      : Option Word
  deriving DecidableEq, Repr

/-- ID/EX (R30). -/
structure IDEX where
  ctrl           : StageCtrl ControlSignals
  sEOffset       : Option Word
  function       : Option Funct
  writeReg_15_11 : RegIdx
  writeReg_20_16 : RegIdx
  readReg1Value  : Word
  readReg2Value  : Word
  incrPC         : Word
  deriving DecidableEq, Repr

/-- The control bits that pass EX (R31, R111). -/
structure ExMemSignals where
  memRead  : Bool
  memWrite : Bool
  memToReg : Option Bool
  regWrite : Bool
  branch   : Bool
  deriving DecidableEq, Repr

/-- EX/MEM (R31). -/
structure EXMEM where
  ctrl         : StageCtrl ExMemSignals
  aluResult    : Word
  writeRegNum  : Option RegIdx
  sWValue      : Word
  incrPC       : Word
  branchTarget : Option Word
  zero         : Option Bool
  deriving DecidableEq, Repr

/-- The control bits that pass MEM (R32, R115). -/
structure MemWbSignals where
  memToReg : Option Bool
  regWrite : Bool
  deriving DecidableEq, Repr

/-- MEM/WB (R32). -/
structure MEMWB where
  ctrl        : StageCtrl MemWbSignals
  lWDataValue : Option Word
  aluResult   : Word
  writeRegNum : Option RegIdx
  deriving DecidableEq, Repr

/-- A double-buffered pipeline register: its two snapshots (R28). -/
structure Buffered (α : Type) where
  write : α
  read  : α
  deriving DecidableEq, Repr

/-- The input ports at one rising edge of `clk` (R37). -/
structure PortInput where
  rst     : Bool
  instrIn : Word
  deriving DecidableEq, Repr

/-- The cycle record (R38, R119). -/
structure CycleRecord where
  cycle     : Word
  registers : RegFile
  ifid      : Buffered IFID
  idex      : Buffered IDEX
  exmem     : Buffered EXMEM
  memwb     : Buffered MEMWB
  deriving DecidableEq, Repr

/-- The state. The first nine fields are the spec's tuple S (R20). `params` is what the host fixed before
reset (R40): no step changes it (log entry 2). `inputs` are the port values of the coming rising edges,
the next one first (R37, log entry 5), and `trace` the cycle records emitted so far, oldest first (R38,
R121, log entry 7): the two are the environment's, and no stage's result depends on `trace`. -/
structure State where
  x      : RegFile
  mem    : List Host.Cell
  ifid   : Buffered IFID
  idex   : Buffered IDEX
  exmem  : Buffered EXMEM
  memwb  : Buffered MEMWB
  cycle  : Word
  halted : Bool
  fault  : Option FaultRecord
  params : Params
  inputs : List PortInput
  trace  : List CycleRecord
  deriving DecidableEq, Repr

/-- A pipeline register at reset: both sides equal (R28, R231). -/
def Buffered.both {α : Type} (a : α) : Buffered α := ⟨a, a⟩

/-- RF_INIT as a register file (R231). -/
def RegFile.init : RegFile := ⟨((List.range 32).map Config.rfInit).toArray, by simp⟩

/-- IF/ID at reset (R29, R231). -/
def IFID.reset : IFID := { instruction := 0, incrPC := none }

/-- ID/EX at reset (R30, R231). -/
def IDEX.reset : IDEX :=
  { ctrl := .noOp, sEOffset := some 0, function := some 0, writeReg_15_11 := 0, writeReg_20_16 := 0,
    readReg1Value := 0, readReg2Value := 0, incrPC := 0 }

/-- EX/MEM at reset (R31, R231). -/
def EXMEM.reset : EXMEM :=
  { ctrl := .noOp, aluResult := 0, writeRegNum := some 0, sWValue := 0, incrPC := 0,
    branchTarget := some 0, zero := some false }

/-- MEM/WB at reset (R32, R231). -/
def MEMWB.reset : MEMWB :=
  { ctrl := .noOp, lWDataValue := some 0, aluResult := 0, writeRegNum := some 0 }

/-- The reset state of a core with parameters `p` (R231), under given coming port values and emitted
records. MainMemory holds MEM_INIT: no cell is listed. -/
def State.resetWith (p : Params) (inputs : List PortInput) (trace : List CycleRecord) : State :=
  { x := RegFile.init, mem := [],
    ifid := .both IFID.reset, idex := .both IDEX.reset,
    exmem := .both EXMEM.reset, memwb := .both MEMWB.reset,
    cycle := 1, halted := false, fault := none,
    params := p, inputs := inputs, trace := trace }

/-- The machine right after reset (R231), nothing yet on its ports. -/
def State.reset : State := State.resetWith Config.params [] []

end Sys2Proof.Machine
end

