-- ==== Sys2Proof/Machine/Flags.lean ====
section
/-! DEFINITION. The core has no status flags (10_state.md R25): no instruction computes a carry, an
overflow or a zero flag. What EX writes in the two fields that would hold a branch's results. -/

namespace Sys2Proof.Machine

/-- EX/MEM.zero after EX: not applicable (R25, R111). -/
def zeroFlag : Option Bool := none

/-- EX/MEM.branchTarget after EX: not applicable (R111, R172). -/
def branchTargetValue : Option Word := none

end Sys2Proof.Machine
end

