-- ==== Sys2Proof/Syntax.lean ====
section
/-! DEFINITION. The instructions: one constructor per row of spec/opcode_table.json (30_encoding.md
R76, R85), operands in the assembler's order (R87). -/

namespace Sys2Proof

/-- The nine forms (R1, R85). `imm` is the signed reading of the 16-bit immediate (R80). `shamt` is
kept because a word has those bits; no stage and no decode output depends on it (R82). -/
inductive Instr where
  | add (rd rs rt : RegIdx) (shamt : BitVec 5)
  | sub (rd rs rt : RegIdx) (shamt : BitVec 5)
  | lb  (rt rs : RegIdx) (imm : Int)
  | lw  (rt rs : RegIdx) (imm : Int)
  | sb  (rt rs : RegIdx) (imm : Int)
  | sw  (rt rs : RegIdx) (imm : Int)
  | beq (rs rt : RegIdx) (imm : Int)
  | bne (rs rt : RegIdx) (imm : Int)
  | nop
  deriving DecidableEq, Repr

end Sys2Proof
end

