-- ==== Sys2Proof/WellFormed.lean ====
section
/-! DEFINITION. Which instructions have an encoding: a displacement must fit the signed 16-bit field
(30_encoding.md R80). Register numbers and shamt are bounded by their types. -/

namespace Sys2Proof

/-- The range of the sign-extended immediate (R80: "a signed integer in range [-32768, 32767]"). -/
def immFits (imm : Int) : Bool := decide (-32768 ≤ imm) && decide (imm ≤ 32767)

/-- An instruction some word encodes. -/
def Instr.wellFormed : Instr → Bool
  | .add _ _ _ _ => true
  | .sub _ _ _ _ => true
  | .lb _ _ imm => immFits imm
  | .lw _ _ imm => immFits imm
  | .sb _ _ imm => immFits imm
  | .sw _ _ imm => immFits imm
  | .beq _ _ imm => immFits imm
  | .bne _ _ imm => immFits imm
  | .nop => true

/-- `WellFormed i` is the proposition that `i` passes every check. -/
abbrev WellFormed (i : Instr) : Prop := i.wellFormed = true

end Sys2Proof
end

