-- ==== Sys2Proof/Decode.lean ====
section
/-! DEFINITION. The word at the host boundary (30_encoding.md R70), the field positions (R71), the
opcode table in one place (R76), the decoder (R72 to R85), total on every word and rejecting by name,
and the encoder. -/

namespace Sys2Proof

/-- R70, R37 (D21): a value shorter than 32 bits is padded with zeros and keeps its value; one that
does not fit in 32 bits never reaches `instr_in`. -/
def hostWord (v : Nat) : Option Word := if v < 2 ^ 32 then some (BitVec.ofNat 32 v) else none

/-! ### Fields (R71) -/

def opcodeOf (w : Word) : Opcode := w.extractLsb' 26 6
def rsOf (w : Word) : RegIdx := w.extractLsb' 21 5
def rtOf (w : Word) : RegIdx := w.extractLsb' 16 5
def rdOf (w : Word) : RegIdx := w.extractLsb' 11 5
def shamtOf (w : Word) : BitVec 5 := w.extractLsb' 6 5
def functOf (w : Word) : Funct := w.extractLsb' 0 6
def imm16Of (w : Word) : BitVec 16 := w.extractLsb' 0 16

/-! ### The tables -/

/-- The I-format mnemonics (R76). -/
inductive IForm where
  | beq | bne | lb | lw | sb | sw
  deriving DecidableEq, Repr

/-- The I-format opcode table (R76, D26), the one place it stands. The numbers but `sb`'s are the
spec's own general knowledge (log entry 16). -/
def IForm.opcode : IForm → Opcode
  | .beq => 0x04
  | .bne => 0x05
  | .lb  => 0x20
  | .lw  => 0x23
  | .sb  => 0x28
  | .sw  => 0x2B

/-- Every row of the opcode table. -/
def IForm.all : List IForm := [.beq, .bne, .lb, .lw, .sb, .sw]

/-- OPCODE_CLASS of R83, by mnemonic: the row whose opcode this is, if any. -/
def IForm.ofOpcode (op : Opcode) : Option IForm := IForm.all.find? (fun f => f.opcode == op)

/-- The function codes the source models (R74). -/
def functAdd : Funct := 0x20
def functSub : Funct := 0x22

/-! ### Decoder -/

/-- Why the decoder rejects a word (R75, R81). -/
inductive DecodeReject where
  /-- A non-zero opcode outside the table (R81). -/
  | unknownOpcode (opcode : Opcode)
  /-- Opcode 0, a non-zero word, and a function code other than add's and sub's (R75). -/
  | unknownFunction (funct : Funct)
  deriving DecidableEq, Repr

/-- The instruction of an I-format row with operands from a word; loads and stores name rt first,
branches rs first (R87). -/
def IForm.instr (f : IForm) (rs rt : RegIdx) (imm : Int) : Instr :=
  match f with
  | .beq => .beq rs rt imm
  | .bne => .bne rs rt imm
  | .lb  => .lb rt rs imm
  | .lw  => .lw rt rs imm
  | .sb  => .sb rt rs imm
  | .sw  => .sw rt rs imm

/-- R74, R75: an R-format word (opcode 0, word non-zero). -/
def decodeR (w : Word) : Except DecodeReject Instr :=
  if functOf w = functAdd then .ok (.add (rdOf w) (rsOf w) (rtOf w) (shamtOf w))
  else if functOf w = functSub then .ok (.sub (rdOf w) (rsOf w) (rtOf w) (shamtOf w))
  else .error (.unknownFunction (functOf w))

/-- R76 to R81: an I-format word; the immediate is read in two's complement (R80). -/
def decodeI (w : Word) : Except DecodeReject Instr :=
  match IForm.ofOpcode (opcodeOf w) with
  | some f => .ok (f.instr (rsOf w) (rtOf w) (imm16Of w).toInt)
  | none => .error (.unknownOpcode (opcodeOf w))

/-- The decoder (R83): the zero-word test first (R73), then the format by opcode (R72). -/
def decode (w : Word) : Except DecodeReject Instr :=
  if w = 0 then .ok .nop
  else if opcodeOf w = 0 then decodeR w
  else decodeI w

/-- The instruction the decoder reads from a word numbered as spec/opcode_table.json numbers it; every
row is one 32-bit word (R70). -/
def decodeTableWord (nbits w : Nat) : Option Instr :=
  match hostWord (w % 2 ^ nbits) with
  | some word => (decode word).toOption
  | none => none

/-! ### Encoder -/

/-- The R-format layout (R71): `000000 rs rt rd shamt funct`. -/
def encodeR (rs rt rd : RegIdx) (shamt : BitVec 5) (funct : Funct) : Word :=
  (0#6 ++ rs ++ rt ++ rd ++ shamt ++ funct : BitVec 32)

/-- The I-format layout (R71): `opcode rs rt imm16`. -/
def encodeI (f : IForm) (rs rt : RegIdx) (imm : Int) : Word :=
  (f.opcode ++ rs ++ rt ++ BitVec.ofInt 16 imm : BitVec 32)

/-- The word of an instruction (the `encoding` strings of spec/opcode_table.json). -/
def encode : Instr → Word
  | .add rd rs rt shamt => encodeR rs rt rd shamt functAdd
  | .sub rd rs rt shamt => encodeR rs rt rd shamt functSub
  | .lb rt rs imm => encodeI .lb rs rt imm
  | .lw rt rs imm => encodeI .lw rs rt imm
  | .sb rt rs imm => encodeI .sb rs rt imm
  | .sw rt rs imm => encodeI .sw rs rt imm
  | .beq rs rt imm => encodeI .beq rs rt imm
  | .bne rs rt imm => encodeI .bne rs rt imm
  | .nop => 0

end Sys2Proof
end

