-- ==== Sys2Proof/Machine/Ops.lean ====
section
/-! DEFINITION. The named operations: RegisterFile and MainMemory access (00_scope.md R7, 20_memory.md),
raising a fault (60_exceptions.md R205), the ports, the commit (40_pipeline.md R103) and the three kinds
of clock edge. -/

namespace Sys2Proof.Machine

/-! ### RegisterFile (R21, R23: entry 0 is like any other) -/

/-- `x[r]` (R7). -/
def RegFile.read (x : RegFile) (r : RegIdx) : Word := x[r.toNat]'r.isLt

/-- `x[r] <- v` (R7). -/
def RegFile.write (x : RegFile) (r : RegIdx) (v : Word) : RegFile := x.set r.toNat v r.isLt

/-! ### MainMemory (R50): listed cells over MEM_INIT -/

/-- What a cell that is not listed reads as: the reset contents MEM_INIT (R50, R231). -/
def Memory.unlisted (p : Params) (a : Nat) : Byte := p.seed a

/-- The value of the cell at `a`. -/
def Memory.read (p : Params) : List Host.Cell → Nat → Byte
  | [], a => Memory.unlisted p a
  | (b, v) :: m, a => if a = b then v else Memory.read p m a

/-- The memory with the cell at `a` holding `v`, in canonical form. -/
def Memory.write (p : Params) (a : Nat) (v : Byte) : List Host.Cell → List Host.Cell
  | [] => if v = Memory.unlisted p a then [] else [(a, v)]
  | (b, u) :: m =>
    if a < b then
      if v = Memory.unlisted p a then (b, u) :: m else (a, v) :: (b, u) :: m
    else if a = b then
      if v = Memory.unlisted p a then m else (a, v) :: m
    else (b, u) :: Memory.write p a v m

/-- Canonical form from address `lo` up: addresses rise strictly and lie in the memory, and no entry
equals what an unlisted cell reads as. -/
def Memory.wfFrom (p : Params) : Nat → List Host.Cell → Bool
  | _, [] => true
  | lo, (a, v) :: m =>
    decide (lo ≤ a) && decide (a < p.memSize) && decide (v ≠ Memory.unlisted p a) &&
      Memory.wfFrom p (a + 1) m

/-- The canonical form of a memory. -/
def Memory.wf (p : Params) (m : List Host.Cell) : Bool := Memory.wfFrom p 0 m

/-- The cell at address `a` as a load would find it. -/
def State.readByte (s : State) (a : Nat) : Byte := Memory.read s.params s.mem a

/-- R51: an address is valid iff it is below MEM_SIZE. -/
def State.validAddress (s : State) (a : Word) : Bool := decide (a.toNat < s.params.memSize)

/-- `MemRead(a, 1)` (R52). -/
def memRead (s : State) (a : Word) : Except FaultRecord Byte :=
  if s.validAddress a then .ok (s.readByte a.toNat) else .error (.memoryAddressError a)

/-- `MemWrite(a, 1, v)` (R53): the memory after the edge. -/
def memWrite (s : State) (a : Word) (v : Byte) : Except FaultRecord (List Host.Cell) :=
  if s.validAddress a then .ok (Memory.write s.params a.toNat v s.mem)
  else .error (.memoryAddressError a)

/-! ### Ports (R37) -/

/-- The port values at the coming edge. With nothing listed the host sends the zero word (R37) and
leaves `rst` low (DESIGN CHOICE, log entry 5). -/
def State.portIn (s : State) : PortInput :=
  match s.inputs with
  | [] => { rst := false, instrIn := 0 }
  | p :: _ => p

/-- The edge has passed: the port values after it come next (log entry 6). -/
def State.edgePassed (s : State) : State := { s with inputs := s.inputs.tail }

/-! ### Faults (60_exceptions.md) -/

/-- The code numbers of R200. -/
def FaultRecord.code : FaultRecord → Nat
  | .decodeError _ => 1
  | .unknownFunction _ => 2
  | .memoryAddressError _ => 3
  | .inconsistentControl _ => 4

/-- The fault a rejected word raises in ID (R201, R202). -/
def decodeFault : DecodeReject → FaultRecord
  | .unknownOpcode op => .decodeError op
  | .unknownFunction f => .unknownFunction f

/-- R205: taking a fault. The core halts and records it; nothing of the cycle commits, the cycle counter
stands and no record is emitted. There is no handler and no return (R207, R210). -/
def raiseFault (f : FaultRecord) (s : State) : State :=
  { s.edgePassed with halted := true, fault := some f }

/-! ### Commit (R103) -/

/-- One pipeline register: the read side becomes a copy of the write side (R103). -/
def Buffered.commit {α : Type} (b : Buffered α) : Buffered α := { b with read := b.write }

/-- All four pipeline registers commit together (R103). -/
def State.commit (s : State) : State :=
  { s with ifid := s.ifid.commit, idex := s.idex.commit,
           exmem := s.exmem.commit, memwb := s.memwb.commit }

/-- The cycle record of a state whose stages have all run and whose registers have not committed (R119). -/
def State.record (s : State) : CycleRecord :=
  { cycle := s.cycle, registers := s.x, ifid := s.ifid, idex := s.idex, exmem := s.exmem,
    memwb := s.memwb }

/-! ### Clock edges (R37, R100, R207, R230) -/

/-- What a rising edge does. -/
inductive EdgeKind where
  /-- `rst = 1`: the reset state is loaded (R230). -/
  | reset
  /-- `rst = 0` and halted: no cycle (R207). -/
  | idle
  /-- A cycle (R100). -/
  | cycle
  deriving DecidableEq, Repr

/-- The kind of the coming edge. -/
def State.edgeKind (s : State) : EdgeKind :=
  if s.portIn.rst then .reset else if s.halted then .idle else .cycle

/-- R230, R243: every state element takes its reset value, halted or not; what was emitted stays
emitted. -/
def resetEdge (s : State) : State := State.resetWith s.params s.inputs.tail s.trace

/-- R207: a halted core ignores `instr_in` and changes nothing. -/
def idleEdge (s : State) : State := s.edgePassed

/-- The word in ID (R101: ID reads the read side of IF/ID). -/
def State.wordInID (s : State) : Word := s.ifid.read.instruction

/-- The host places the words of a run on `instr_in`, one per edge, with `rst` low (R37, R121). -/
def State.feed (s : State) (words : List Word) : State :=
  { s with inputs := words.map fun w => { rst := false, instrIn := w } }

/-- The state with the word `w` in IF/ID, so that the next edge is a cycle that has it in ID (log
entry 14): IF/ID.incrPC is what IF would have given a first word where it is `NONE` (R105), the core is
not halted, and `rst` is low at the next edge. -/
def State.placeInID (s : State) (w : Word) : State :=
  let slot : IFID :=
    { instruction := w, incrPC := some (s.ifid.read.incrPC.getD (s.params.startPC + 4)) }
  { s with
    ifid := .both slot
    halted := false
    fault := none
    inputs := match s.inputs with
      | [] => []
      | p :: ps => { p with rst := false } :: ps }

end Sys2Proof.Machine
end

