-- ==== Sys2Proof/Machine/Operands.lean ====
section
/-! DEFINITION. The decoder's outputs (30_encoding.md R74 to R84), the immediate (R80), ID's register
reads (40_pipeline.md R106, R107), EX's destination select and ALU (R109, R110). -/

namespace Sys2Proof.Machine

/-! ### Immediate -/

/-- The 16-bit field of a displacement. -/
def imm16 (imm : Int) : BitVec 16 := BitVec.ofInt 16 imm

/-- `sEOffset = sext_32(imm16)` (R80). -/
def sEOffsetOf (imm : Int) : Word := (imm16 imm).signExtend 32

/-- Bits [15:11] of an I-format word, which are the immediate's (R71, R82). -/
def immBits_15_11 (imm : Int) : RegIdx := (imm16 imm).extractLsb' 11 5

/-! ### Control records -/

/-- `CTRL_R` (R74). -/
def ctrlR : ControlSignals :=
  { regWrite := true, regDest := some true, memToReg := some false, memRead := false,
    memWrite := false, aluSrc := false, branch := false, aluOp := .byFunction }

/-- `CTRL_LOAD` (R77). -/
def ctrlLoad : ControlSignals :=
  { regWrite := true, regDest := some false, memToReg := some true, memRead := true,
    memWrite := false, aluSrc := true, branch := false, aluOp := .effectiveAddress }

/-- `CTRL_STORE` (R78). -/
def ctrlStore : ControlSignals :=
  { regWrite := false, regDest := none, memToReg := none, memRead := false,
    memWrite := true, aluSrc := true, branch := false, aluOp := .effectiveAddress }

/-- `CTRL_BRANCH` (R79). -/
def ctrlBranch : ControlSignals :=
  { regWrite := false, regDest := none, memToReg := none, memRead := false,
    memWrite := false, aluSrc := false, branch := true, aluOp := .effectiveAddress }

/-- What the decoder outputs for a word other than zero (R83). -/
structure DecodeOut where
  ctrl     : ControlSignals
  function : Option Funct
  sEOffset : Option Word
  deriving DecidableEq, Repr

/-- R74: R-format output. -/
def outR (funct : Funct) : DecodeOut := { ctrl := ctrlR, function := some funct, sEOffset := none }

/-- R77 to R80: I-format output. -/
def outI (ctrl : ControlSignals) (imm : Int) : DecodeOut :=
  { ctrl := ctrl, function := none, sEOffset := some (sEOffsetOf imm) }

/-- The decode output of each instruction (R73 to R80). -/
def decodeOut : Instr → StageCtrl DecodeOut
  | .add _ _ _ _ => .active (outR functAdd)
  | .sub _ _ _ _ => .active (outR functSub)
  | .lb _ _ imm => .active (outI ctrlLoad imm)
  | .lw _ _ imm => .active (outI ctrlLoad imm)
  | .sb _ _ imm => .active (outI ctrlStore imm)
  | .sw _ _ imm => .active (outI ctrlStore imm)
  | .beq _ _ imm => .active (outI ctrlBranch imm)
  | .bne _ _ imm => .active (outI ctrlBranch imm)
  | .nop => .noOp

/-- The InstructionDecoder as a component: word to control record, or the fault ID raises (R83). Its
second input, the next-PC value, is accepted and no output depends on it. -/
def instructionDecoder (w : Word) (_nextPC : Option Word) : Except FaultRecord (StageCtrl DecodeOut) :=
  match decode w with
  | .ok i => .ok (decodeOut i)
  | .error r => .error (decodeFault r)

/-! ### ID -/

/-- The incrPC that ID copies forward (R107); `NONE` here is a case R107 rules out (log entry 9). -/
def State.incrPCInID (s : State) : Word :=
  match s.ifid.read.incrPC with
  | some p => p
  | none => Config.freeIncrPC s.cycle

/-- R107: ID/EX's write side for a word other than zero, with decode output `d`, first register `rs`
(bits [25:21]), second register `rt` (bits [20:16]) and bits [15:11]. -/
def idStage (d : DecodeOut) (rs rt bits_15_11 : RegIdx) (s : State) : IDEX :=
  { ctrl := .active d.ctrl
    sEOffset := d.sEOffset
    function := d.function
    writeReg_15_11 := bits_15_11
    writeReg_20_16 := rt
    readReg1Value := s.x.read rs
    readReg2Value := s.x.read rt
    incrPC := s.incrPCInID }

/-- R106: ID/EX's write side for the zero word; every field but `ctrl` holds. -/
def idNoOp (s : State) : IDEX := { s.idex.write with ctrl := .noOp }

/-! ### EX -/

/-- R109: the destination register number. -/
def destSelect (c : ControlSignals) (d : IDEX) : Option RegIdx :=
  match c.regDest with
  | some false => some d.writeReg_20_16
  | some true => some d.writeReg_15_11
  | none => none

/-- R110: the ALU. -/
def alu (c : ControlSignals) (d : IDEX) : Except FaultRecord Word :=
  match c.aluOp with
  | .byFunction =>
    if d.function = some functAdd then .ok (d.readReg1Value + d.readReg2Value)
    else if d.function = some functSub then .ok (d.readReg1Value - d.readReg2Value)
    else .error (.inconsistentControl .ex)
  | .effectiveAddress =>
    match d.sEOffset with
    | some off => .ok (d.readReg1Value + off)
    | none => .error (.inconsistentControl .ex)

/-- The control bits that pass EX (R111): `regDest`, `aluSrc` and `aluOp` do not. -/
def ControlSignals.passEX (c : ControlSignals) : ExMemSignals :=
  { memRead := c.memRead, memWrite := c.memWrite, memToReg := c.memToReg,
    regWrite := c.regWrite, branch := c.branch }

/-- The control bits that pass MEM (R115). -/
def ExMemSignals.passMEM (m : ExMemSignals) : MemWbSignals :=
  { memToReg := m.memToReg, regWrite := m.regWrite }

/-- The effective address base + displacement (42_loadstore.md, R110). -/
def effectiveAddress (base : Word) (imm : Int) : Word := base + sEOffsetOf imm

end Sys2Proof.Machine
end

