-- ==== Sys2Proof/Machine/Stages.lean ====
section
/-! DEFINITION. The stages IF, EX, MEM and WB (40_pipeline.md R105, R108 to R118) and the cycle that
composes them round the ID/EX contents of the instruction in ID (R100, R120). Every stage reads the
state as it stood at the start of the cycle (R103). -/

namespace Sys2Proof.Machine

/-- R105: IF/ID's write side. No instruction redirects it (R172). -/
def ifStage (s : State) : IFID :=
  { instruction := s.portIn.instrIn
    incrPC := some (s.ifid.read.incrPC.getD s.params.startPC + 4) }

/-- R108 to R111: EX/MEM's write side. -/
def exStage (s : State) : Except FaultRecord EXMEM :=
  let d := s.idex.read
  match d.ctrl with
  | .noOp => .ok { s.exmem.write with ctrl := .noOp }
  | .active c =>
    match alu c d with
    | .error f => .error f
    | .ok aluResult => .ok
      { ctrl := .active c.passEX
        aluResult := aluResult
        writeRegNum := destSelect c d
        sWValue := d.readReg2Value
        incrPC := d.incrPC
        branchTarget := branchTargetValue
        zero := zeroFlag }

/-- R113: the loaded value, zero-extended, or `NA` when the word in MEM does not load. -/
def loadValue (m : ExMemSignals) (s : State) : Except FaultRecord (Option Word) :=
  if m.memRead then
    match memRead s s.exmem.read.aluResult with
    | .error f => .error f
    | .ok b => .ok (some (b.setWidth 32))
  else .ok none

/-- R114: the memory after the edge; a store writes the low byte of `sWValue`. -/
def storeResult (m : ExMemSignals) (s : State) : Except FaultRecord (List Host.Cell) :=
  if m.memWrite then memWrite s s.exmem.read.aluResult (s.exmem.read.sWValue.extractLsb' 0 8)
  else .ok s.mem

/-- R112 to R115: MEM/WB's write side and the memory after the edge. -/
def memStage (s : State) : Except FaultRecord (MEMWB × List Host.Cell) :=
  match s.exmem.read.ctrl with
  | .noOp => .ok ({ s.memwb.write with ctrl := .noOp }, s.mem)
  | .active m =>
    match loadValue m s with
    | .error f => .error f
    | .ok lWData =>
      match storeResult m s with
      | .error f => .error f
      | .ok mem => .ok
        ({ ctrl := .active m.passMEM
           lWDataValue := lWData
           aluResult := s.exmem.read.aluResult
           writeRegNum := s.exmem.read.writeRegNum }, mem)

/-- R117, R118: the value WB writes, or the consistency fault. -/
def wbValue (b : MemWbSignals) (r : MEMWB) : Except FaultRecord Word :=
  match b.memToReg with
  | some true =>
    match r.lWDataValue with
    | some v => .ok v
    | none => .error (.inconsistentControl .wb)
  | some false => .ok r.aluResult
  | none => .error (.inconsistentControl .wb)

/-- R116 to R118: the RegisterFile after the edge. -/
def wbStage (s : State) : Except FaultRecord RegFile :=
  match s.memwb.read.ctrl with
  | .noOp => .ok s.x
  | .active b =>
    if b.regWrite then
      match s.memwb.read.writeRegNum with
      | none => .error (.inconsistentControl .wb)
      | some n =>
        match wbValue b s.memwb.read with
        | .error f => .error f
        | .ok v => .ok (s.x.write n v)
    else .ok s.x

/-- What the stages behind ID produce in a cycle none of them faults in. -/
structure OlderWork where
  exmem : EXMEM
  memwb : MEMWB
  mem   : List Host.Cell
  x     : RegFile
  deriving DecidableEq, Repr

/-- EX, MEM and WB in the fixed order, stopping at the first fault (R100, R205, R206). -/
def olderStages (s : State) : Except FaultRecord OlderWork :=
  match exStage s with
  | .error f => .error f
  | .ok exmem =>
    match memStage s with
    | .error f => .error f
    | .ok (memwb, mem) =>
      match wbStage s with
      | .error f => .error f
      | .ok x => .ok { exmem := exmem, memwb := memwb, mem := mem, x := x }

/-- The state after all five stages and before the commit: every write side written, and the RegisterFile
and MainMemory as they will be after the edge (R103, R119). -/
def stagesRun (idex : IDEX) (w : OlderWork) (s : State) : State :=
  { s with
    x := w.x
    mem := w.mem
    ifid := { s.ifid with write := ifStage s }
    idex := { s.idex with write := idex }
    exmem := { s.exmem with write := w.exmem }
    memwb := { s.memwb with write := w.memwb } }

/-- R100, R103, R34: emit the record, commit the four registers, advance the cycle counter. -/
def endCycle (s : State) : State :=
  { s.commit.edgePassed with cycle := s.cycle + 1, trace := s.trace ++ [s.record] }

/-- R120: the cycle in which ID writes `idex`; a fault of EX, MEM or WB is taken instead (R205). -/
def runCycle (idex : IDEX) (s : State) : State :=
  match olderStages s with
  | .error f => raiseFault f s
  | .ok w => endCycle (stagesRun idex w s)

end Sys2Proof.Machine
end

