-- ==== Sys2Proof/Machine/Alu.lean ====
section
/-! DEFINITION. R-format arithmetic (41_alu.md). A meaning is the cycle in which the instruction is in
ID: it decides what ID/EX carries on, and the stages of the following cycles act on that (log entry 1). -/

namespace Sys2Proof.Machine

/-- `add rd, rs, rt` (R140); `shamt` is never examined (R82). -/
def execAdd (rd rs rt : RegIdx) (_shamt : BitVec 5) (s : State) : Host.Outcome State Fault Refusal :=
  .next (runCycle (idStage (outR functAdd) rs rt rd s) s)

/-- `sub rd, rs, rt` (R141). -/
def execSub (rd rs rt : RegIdx) (_shamt : BitVec 5) (s : State) : Host.Outcome State Fault Refusal :=
  .next (runCycle (idStage (outR functSub) rs rt rd s) s)

end Sys2Proof.Machine
end

