-- ==== Sys2Proof/Machine/Branch.lean ====
section
/-! DEFINITION. Branches (43_branch.md): the cycle in which the instruction is in ID (log entry 1). The
comparison is never evaluated and fetch is never redirected (R170, R172). -/

namespace Sys2Proof.Machine

/-- `beq rs, rt, imm` (R170). -/
def execBeq (rs rt : RegIdx) (imm : Int) (s : State) : Host.Outcome State Fault Refusal :=
  .next (runCycle (idStage (outI ctrlBranch imm) rs rt (immBits_15_11 imm) s) s)

/-- `bne rs, rt, imm` (R171): the datapath of `beq` (R79). -/
def execBne (rs rt : RegIdx) (imm : Int) (s : State) : Host.Outcome State Fault Refusal :=
  .next (runCycle (idStage (outI ctrlBranch imm) rs rt (immBits_15_11 imm) s) s)

end Sys2Proof.Machine
end

