-- ==== Sys2Proof/Machine/LoadStore.lean ====
section
/-! DEFINITION. Loads and stores (42_loadstore.md): the cycle in which the instruction is in ID (log
entry 1). -/

namespace Sys2Proof.Machine

/-- `lb rt, imm(rs)` (R150). -/
def execLb (rt rs : RegIdx) (imm : Int) (s : State) : Host.Outcome State Fault Refusal :=
  .next (runCycle (idStage (outI ctrlLoad imm) rs rt (immBits_15_11 imm) s) s)

/-- `lw rt, imm(rs)` (R151): the datapath of `lb` (R84). -/
def execLw (rt rs : RegIdx) (imm : Int) (s : State) : Host.Outcome State Fault Refusal :=
  .next (runCycle (idStage (outI ctrlLoad imm) rs rt (immBits_15_11 imm) s) s)

/-- `sb rt, imm(rs)` (R152). -/
def execSb (rt rs : RegIdx) (imm : Int) (s : State) : Host.Outcome State Fault Refusal :=
  .next (runCycle (idStage (outI ctrlStore imm) rs rt (immBits_15_11 imm) s) s)

/-- `sw rt, imm(rs)` (R153): the datapath of `sb` (R84). -/
def execSw (rt rs : RegIdx) (imm : Int) (s : State) : Host.Outcome State Fault Refusal :=
  .next (runCycle (idStage (outI ctrlStore imm) rs rt (immBits_15_11 imm) s) s)

end Sys2Proof.Machine
end

