-- ==== Sys2Proof/Machine/Nop.lean ====
section
/-! DEFINITION. The no-op word (44_nop.md): the cycle in which it is in ID (log entry 1). -/

namespace Sys2Proof.Machine

/-- `nop`, the zero word (R180): ID writes only the control sentinel (R106). -/
def execNop (s : State) : Host.Outcome State Fault Refusal :=
  .next (runCycle (idNoOp s) s)

end Sys2Proof.Machine
end

