-- ==== Sys2Proof/Machine/Step.lean ====
section
/-! DEFINITION. One step is one rising edge of `clk` (10_state.md R37, 40_pipeline.md R100). -/

namespace Sys2Proof.Machine

/-- One rising edge: reset (R230), nothing while halted (R207), or a cycle (R100, R120), which runs the
meaning of the word in ID, or takes the fault that word raises there (R201, R202, R206). -/
def step (s : State) : Host.Outcome State Fault Refusal :=
  match s.edgeKind with
  | .reset => .next (resetEdge s)
  | .idle => .next (idleEdge s)
  | .cycle =>
    match decode s.wordInID with
    | .ok i => exec i s
    | .error r => .next (raiseFault (decodeFault r) s)

/-- The word stored where the next step takes the instruction it runs: the read side of IF/ID (log
entry 14). -/
def State.withFetchWord (s : State) (nbits w : Nat) : State :=
  s.placeInID (BitVec.ofNat 32 (w % 2 ^ nbits))

end Sys2Proof.Machine
end

