-- ==== Sys2Proof/Machine/Assembly.lean ====
section
/-! DEFINITION. Register names and operand syntax (30_encoding.md R86 to R88). The names carry no
hardware meaning. -/

namespace Sys2Proof.Machine

/-- The ABI names in order of register number (R86). -/
def abiNames : List String :=
  ["zero", "at", "v0", "v1", "a0", "a1", "a2", "a3", "t0", "t1", "t2", "t3", "t4", "t5", "t6", "t7",
   "s0", "s1", "s2", "s3", "s4", "s5", "s6", "s7", "t8", "t9", "k0", "k1", "gp", "sp", "fp", "ra"]

/-- `$name` of a register (R86). -/
def regName (r : RegIdx) : String := "$" ++ abiNames.getD r.toNat ""

/-- The register a `$name` or `$number` spells (R86). -/
def regOfName (name : String) : Option RegIdx :=
  (List.range 32).findSome? fun n =>
    if name = "$" ++ abiNames.getD n "" || name = "$" ++ toString n then some (BitVec.ofNat 5 n)
    else none

/-- `op a, b, c` (R87). -/
def threeOperands (op a b c : String) : String := op ++ " " ++ a ++ ", " ++ b ++ ", " ++ c

/-- `op rt, imm(rs)` (R87). -/
def baseOperand (op : String) (rt rs : RegIdx) (imm : Int) : String :=
  op ++ " " ++ regName rt ++ ", " ++ toString imm ++ "(" ++ regName rs ++ ")"

/-- The assembler text of an instruction (R87, R88); `shamt` has no place in it. -/
def asmText : Instr → String
  | .add rd rs rt _ => threeOperands "add" (regName rd) (regName rs) (regName rt)
  | .sub rd rs rt _ => threeOperands "sub" (regName rd) (regName rs) (regName rt)
  | .lb rt rs imm => baseOperand "lb" rt rs imm
  | .lw rt rs imm => baseOperand "lw" rt rs imm
  | .sb rt rs imm => baseOperand "sb" rt rs imm
  | .sw rt rs imm => baseOperand "sw" rt rs imm
  | .beq rs rt imm => threeOperands "beq" (regName rs) (regName rt) (toString imm)
  | .bne rs rt imm => threeOperands "bne" (regName rs) (regName rt) (toString imm)
  | .nop => "nop"

/-- The displacement an `imm` operand stands for: written signed, or as its 16 bits 0 to 0xFFFF (R87). -/
def immOperand (v : Int) : Option Int :=
  if -32768 ≤ v ∧ v ≤ 0xFFFF then some (BitVec.ofInt 16 v).toInt else none

end Sys2Proof.Machine
end

