-- ==== Sys2Proof/Safety.lean ====
section
/-! DEFINITION. What counts as a safe state and a safe run, in the terms the statements use: when the
stages behind ID raise nothing, the invariants, runs of several edges, and the relations between states
that hazard and isolation statements compare. -/

namespace Sys2Proof.Machine

/-! ### When a cycle commits (R205) -/

/-- EX raises nothing (R110). -/
def State.exReady (s : State) : Prop :=
  ∀ c, s.idex.read.ctrl = .active c →
    (c.aluOp = .byFunction ∧
      (s.idex.read.function = some functAdd ∨ s.idex.read.function = some functSub)) ∨
    (c.aluOp = .effectiveAddress ∧ ∃ off, s.idex.read.sEOffset = some off)

/-- MEM raises nothing (R52, R53, R203). -/
def State.memReady (s : State) : Prop :=
  ∀ m, s.exmem.read.ctrl = .active m → m.memRead = true ∨ m.memWrite = true →
    s.exmem.read.aluResult.toNat < s.params.memSize

/-- WB raises nothing (R118). -/
def State.wbReady (s : State) : Prop :=
  ∀ b, s.memwb.read.ctrl = .active b → b.regWrite = true →
    (∃ n, s.memwb.read.writeRegNum = some n) ∧
    (b.memToReg = some false ∨ (b.memToReg = some true ∧ ∃ v, s.memwb.read.lWDataValue = some v))

/-- The words in EX, MEM and WB raise nothing in the coming cycle. -/
structure State.CanCommit (s : State) : Prop where
  ex  : s.exReady
  mem : s.memReady
  wb  : s.wbReady

/-! ### The state invariant -/

/-- ID/EX holds what ID writes for a word the decoder accepts (R74 to R80, R106, R107). -/
def IDEX.Decoded (d : IDEX) : Prop :=
  d.ctrl = .noOp ∨
  (d.ctrl = .active ctrlR ∧ (d.function = some functAdd ∨ d.function = some functSub) ∧
    d.sEOffset = none) ∨
  ((d.ctrl = .active ctrlLoad ∨ d.ctrl = .active ctrlStore ∨ d.ctrl = .active ctrlBranch) ∧
    d.function = none ∧
    ∃ off : Word, d.sEOffset = some off ∧ -32768 ≤ off.toInt ∧ off.toInt ≤ 32767)

/-- EX/MEM holds what EX writes for such contents (R109, R111). -/
def EXMEM.Executed (r : EXMEM) : Prop :=
  r.ctrl = .noOp ∨
  (r.branchTarget = none ∧ r.zero = none ∧
    (((r.ctrl = .active ctrlR.passEX ∨ r.ctrl = .active ctrlLoad.passEX) ∧
        ∃ n, r.writeRegNum = some n) ∨
      ((r.ctrl = .active ctrlStore.passEX ∨ r.ctrl = .active ctrlBranch.passEX) ∧
        r.writeRegNum = none)))

/-- MEM/WB holds what MEM writes for such contents (R113, R115). -/
def MEMWB.Accessed (r : MEMWB) : Prop :=
  r.ctrl = .noOp ∨
  (r.ctrl = .active ctrlR.passEX.passMEM ∧ r.lWDataValue = none ∧ ∃ n, r.writeRegNum = some n) ∨
  (r.ctrl = .active ctrlLoad.passEX.passMEM ∧ (∃ b : Byte, r.lWDataValue = some (b.setWidth 32)) ∧
    ∃ n, r.writeRegNum = some n) ∨
  (r.ctrl = .active ctrlStore.passEX.passMEM ∧ r.lWDataValue = none ∧ r.writeRegNum = none)

/-- The invariant: MainMemory is canonical, both sides of every pipeline register agree (R33), IF/ID has
no word but zero before the first fetch (R107), the pipeline registers hold what decoded words leave in
them (R123), and `halted` and `fault` go together (R35, R205). -/
structure State.Inv (s : State) : Prop where
  memCanonical : Memory.wf s.params s.mem = true
  ifidCommitted  : s.ifid.write = s.ifid.read
  idexCommitted  : s.idex.write = s.idex.read
  exmemCommitted : s.exmem.write = s.exmem.read
  memwbCommitted : s.memwb.write = s.memwb.read
  unfetched : s.ifid.read.incrPC = none → s.ifid.read.instruction = 0
  idexDecoded   : s.idex.read.Decoded
  exmemExecuted : s.exmem.read.Executed
  memwbAccessed : s.memwb.read.Accessed
  haltedIffFault : s.halted = s.fault.isSome

/-- incrPC is a tag that follows the cycle counter (R24, R105): in cycle c, IF/ID holds
`START_PC + 4*(c-1)` and a word further on carries 4 less per stage. -/
structure State.TagInv (s : State) : Prop where
  ifidTag : ∀ p, s.ifid.read.incrPC = some p → p = s.params.startPC + 4 * (s.cycle - 1)
  ifidNone : s.ifid.read.incrPC = none → s.cycle = 1
  idexTag : s.idex.read.ctrl ≠ .noOp → s.idex.read.incrPC = s.params.startPC + 4 * (s.cycle - 2)
  exmemTag : s.exmem.read.ctrl ≠ .noOp → s.exmem.read.incrPC = s.params.startPC + 4 * (s.cycle - 3)

/-! ### Runs -/

/-- `n` clock edges (R121). -/
def runEdges : Nat → State → Host.Outcome State Fault Refusal
  | 0, s => .next s
  | n + 1, s =>
    match step s with
    | .next t => runEdges n t
    | .fault r => .fault r
    | .refused r => .refused r

/-- A run over the words `words` (R121): one edge a word. -/
def runWords (words : List Word) (s : State) : Host.Outcome State Fault Refusal :=
  runEdges words.length (s.feed words)

/-- A safe run: it ends in a state that is not halted. -/
def runsSafely (words : List Word) (s : State) : Prop :=
  ∃ t, runWords words s = .next t ∧ t.halted = false

/-- `rst` stays low at the next `n` edges (R37). -/
def State.rstLow (n : Nat) (s : State) : Prop := ∀ p ∈ s.inputs.take n, p.rst = false

/-- The host presents the zero word, `rst` low, at the next `n` edges (R37, R240). -/
def State.zeroWords (n : Nat) (s : State) : Prop :=
  ∀ p ∈ s.inputs.take n, p = { rst := false, instrIn := 0 }

/-- The stages behind ID hold no-ops (R180: the bubble). -/
structure State.Drained (s : State) : Prop where
  idex  : s.idex.read.ctrl = .noOp
  exmem : s.exmem.read.ctrl = .noOp
  memwb : s.memwb.read.ctrl = .noOp

/-- The instruction in ID is alone: nothing in the stages behind it, and four zero words come next
(R240). -/
structure State.Alone (s : State) : Prop where
  running : s.halted = false
  drained : s.Drained
  zeros   : s.zeroWords 4

/-! ### Comparing states -/

/-- The same state but for the incrPC tags, START_PC, the cycle counter and the emitted records. -/
structure SameButTags (s t : State) : Prop where
  x : t.x = s.x
  mem : t.mem = s.mem
  memTop : t.params.memTop = s.params.memTop
  memInit : t.params.memInit = s.params.memInit
  word : t.ifid.read.instruction = s.ifid.read.instruction
  idexRead : ∃ p, t.idex.read = { s.idex.read with incrPC := p }
  idexWrite : ∃ p, t.idex.write = { s.idex.write with incrPC := p }
  exmemRead : ∃ p, t.exmem.read = { s.exmem.read with incrPC := p }
  exmemWrite : ∃ p, t.exmem.write = { s.exmem.write with incrPC := p }
  memwb : t.memwb = s.memwb
  halted : t.halted = s.halted
  fault : t.fault = s.fault
  inputs : t.inputs = s.inputs

end Sys2Proof.Machine
end

