-- ==== Sys2Proof/Certificates/Slice0/Obligations.lean ====
section
/-! DEFINITION. The statements for the provers, each from the numbered rules of spec/. A meaning `exec i s`
is the cycle that has `i` in ID (log entry 1), so an instruction's result on the RegisterFile or MainMemory
is stated over that cycle and the edges after it (70_reset_and_hazards.md R234). -/

open Sys2Proof Sys2Proof.Machine

/-! ### Encoding and decoder -/

/-- R71, R74, R76, R80: decoding the word of a well-formed instruction gives it back, with every operand. That
the bits shamt, which R82 ignores, are an operand (log entry 11) and a displacement a signed integer with a
range (log entry 10) is the model's choice. -/
def Obligations.DecodeOfEncodeIsIdentity : Prop :=
  ∀ i : Instr, WellFormed i → decode (encode i) = .ok i

/-- R71, R85: a word the decoder accepts is the word of the instruction read from it, which is well-formed. That
`add` and `sub` drop no bit either is the model's choice: R82 says shamt is ignored, and `Instr` keeps it as an
operand (log entry 11); what well-formed asks of a displacement is log entry 10. -/
def Obligations.EncodeOfDecodeIsIdentity : Prop :=
  ∀ (w : Word) (i : Instr), decode w = .ok i → WellFormed i ∧ encode i = w

/-- R83: the decoder's whole function, on the raw bits of the word; no output depends on the next PC. -/
def Obligations.DecoderComputesItsTable : Prop :=
  ∀ (w : Word) (pc : Option Word),
    let op := w.extractLsb' 26 6
    let f := w.extractLsb' 0 6
    let off := (w.extractLsb' 0 16).signExtend 32
    instructionDecoder w pc =
      if w = 0x00000000#32 then .ok .noOp
      else if op = 0#6 then
        if f = 0x20#6 ∨ f = 0x22#6 then
          .ok (.active
            { ctrl := { regWrite := true, regDest := some true, memToReg := some false,
                        memRead := false, memWrite := false, aluSrc := false, branch := false,
                        aluOp := .byFunction }
              function := some f, sEOffset := none })
        else .error (.unknownFunction f)
      else if op = 0x20#6 ∨ op = 0x23#6 then
        .ok (.active
          { ctrl := { regWrite := true, regDest := some false, memToReg := some true,
                      memRead := true, memWrite := false, aluSrc := true, branch := false,
                      aluOp := .effectiveAddress }
            function := none, sEOffset := some off })
      else if op = 0x28#6 ∨ op = 0x2B#6 then
        .ok (.active
          { ctrl := { regWrite := false, regDest := none, memToReg := none,
                      memRead := false, memWrite := true, aluSrc := true, branch := false,
                      aluOp := .effectiveAddress }
            function := none, sEOffset := some off })
      else if op = 0x04#6 ∨ op = 0x05#6 then
        .ok (.active
          { ctrl := { regWrite := false, regDest := none, memToReg := none,
                      memRead := false, memWrite := false, aluSrc := false, branch := true,
                      aluOp := .effectiveAddress }
            function := none, sEOffset := some off })
      else .error (.decodeError op)

/-- Words written out from the encodings of 30_encoding.md and 95_test_vectors.md decode to the instructions
they stand for. -/
def Obligations.WrittenWordsDecode : Prop :=
  decode 0x014B4820#32 = .ok (.add 9 10 11 0) ∧ decode 0x01286022#32 = .ok (.sub 12 9 8 0) ∧
  decode 0x8104FFFC#32 = .ok (.lb 4 8 (-4)) ∧ decode 0x8C060000#32 = .ok (.lw 6 0 0) ∧
  decode 0xA1020000#32 = .ok (.sb 2 8 0) ∧ decode 0xAC050010#32 = .ok (.sw 5 0 16) ∧
  decode 0x10000004#32 = .ok (.beq 0 0 4) ∧ decode 0x1422FFFF#32 = .ok (.bne 1 2 (-1)) ∧
  decode 0x00000000#32 = .ok .nop ∧ decode 0xFC000000#32 = .error (.unknownOpcode 0x3F) ∧
  decode 0x00000021#32 = .error (.unknownFunction 0x21)

/-- R80: sEOffset of a displacement in range has that displacement as its two's-complement reading. -/
def Obligations.SignExtensionKeepsTheDisplacement : Prop :=
  ∀ imm : Int, -32768 ≤ imm → imm ≤ 32767 → (sEOffsetOf imm).toInt = imm

/-- R70: input that fits in 32 bits keeps its value, and no other input becomes a word. -/
def Obligations.HostInputKeepsItsValueOrIsRefused : Prop :=
  ∀ v : Nat,
    (v < 2 ^ 32 → ∃ w, hostWord v = some w ∧ w.toNat = v) ∧ (2 ^ 32 ≤ v → hostWord v = none)

/-! ### Reset (R230, R231, R243) -/

/-- R231: every state element at reset, for every choice of the open parameters, and that `State.reset` is
such a state. (The port values and the emitted records in it are the model's own fields, log entries 5
and 7.) -/
def Obligations.ResetLeavesTheTabledValues : Prop :=
  State.reset = State.resetWith Config.params [] [] ∧
  ∀ (p : Params) (inputs : List PortInput) (trace : List CycleRecord),
    let s := State.resetWith p inputs trace
    s.x.read 0 = 0x00000000#32 ∧
    (∀ r : RegIdx, r ≠ 0 → s.x.read r = 0x100#32 + r.setWidth 32) ∧
    (∀ a : Nat, a < p.memSize → s.readByte a = p.seed a) ∧
    s.ifid.read = { instruction := 0x00000000#32, incrPC := none } ∧
    s.idex.read =
      { ctrl := .noOp, sEOffset := some 0, function := some 0, writeReg_15_11 := 0,
        writeReg_20_16 := 0, readReg1Value := 0, readReg2Value := 0, incrPC := 0 } ∧
    s.exmem.read =
      { ctrl := .noOp, aluResult := 0, writeRegNum := some 0, sWValue := 0, incrPC := 0,
        branchTarget := some 0, zero := some false } ∧
    s.memwb.read = { ctrl := .noOp, lWDataValue := some 0, aluResult := 0, writeRegNum := some 0 } ∧
    s.ifid.write = s.ifid.read ∧ s.idex.write = s.idex.read ∧
    s.exmem.write = s.exmem.read ∧ s.memwb.write = s.memwb.read ∧
    s.cycle = 1 ∧ s.halted = false ∧ s.fault = none

/-- R230, R243: an edge with `rst = 1` loads the reset state of the core's parameters, MainMemory
included, whatever is in flight, halted or not. -/
def Obligations.RstEdgeLoadsTheResetState : Prop :=
  ∀ s : State, s.portIn.rst = true →
    ∃ inputs trace, step s = .next (State.resetWith s.params inputs trace)

/-! ### The clock edge -/

/-- R100, R101: at an edge that performs a cycle, the step is the meaning of the instruction that the word
on the read side of IF/ID decodes to. The step adds nothing: fetching the next word is part of the
cycle. -/
def Obligations.StepRunsTheInstructionInID : Prop :=
  ∀ (s : State) (i : Instr), s.portIn.rst = false → s.halted = false →
    decode s.ifid.read.instruction = .ok i → step s = exec i s

/-- A placed word that decodes is what the next step runs. -/
def Obligations.PlacedWordIsRunByTheNextStep : Prop :=
  ∀ (s : State) (w : Nat) (i : Instr), decodeTableWord 32 w = some i →
    step (s.withFetchWord 32 w) = exec i (s.withFetchWord 32 w)

/-- Every edge has a next state: the model neither faults nor refuses (R205, R207 and log entry 8). -/
def Obligations.EveryEdgeHasANextState : Prop :=
  ∀ s : State, ∃ t, step s = .next t

/-- R207: a halted core changes no state element at an edge with `rst = 0`, whatever is on its ports, and an
edge that takes it out of the halted state is a reset edge. -/
def Obligations.HaltedCoreWaitsForReset : Prop :=
  ∀ s : State, s.halted = true →
    (s.portIn.rst = false → ∃ inputs, step s = .next { s with inputs := inputs }) ∧
    (∀ t, step s = .next t → t.halted = false → s.portIn.rst = true)

/-- R39, R40: no step changes the parameters or the words the host will present; every edge, a faulting,
halted or reset edge too, uses up the port values of that edge (the model's choice, log entry 6). -/
def Obligations.ParametersAndInputStreamAreNotWritten : Prop :=
  ∀ s t : State, step s = .next t → t.params = s.params ∧ t.inputs = s.inputs.tail

/-! ### Faults -/

/-- R201: a non-zero word in ID whose opcode is neither 0 nor in the table halts the core with
`DecodeError`; nothing else changes (R205). -/
def Obligations.UnknownOpcodeHaltsInID : Prop :=
  ∀ s : State, s.portIn.rst = false → s.halted = false →
    let op := s.ifid.read.instruction.extractLsb' 26 6
    op ∉ [0x00#6, 0x04#6, 0x05#6, 0x20#6, 0x23#6, 0x28#6, 0x2B#6] →
    ∃ inputs,
      step s = .next { s with halted := true, fault := some (.decodeError op), inputs := inputs }

/-- R202: a non-zero word in ID with opcode 0 and another function code halts the core with
`UnknownFunction`; nothing else changes (R205). -/
def Obligations.UnknownFunctionHaltsInID : Prop :=
  ∀ s : State, s.portIn.rst = false → s.halted = false →
    let w := s.ifid.read.instruction
    w ≠ 0 → w.extractLsb' 26 6 = 0#6 → w.extractLsb' 0 6 ∉ [0x20#6, 0x22#6] →
    ∃ inputs, step s = .next
      { s with
        halted := true, fault := some (.unknownFunction (w.extractLsb' 0 6)), inputs := inputs }

/-- R203: a load or store in MEM whose address is at or beyond MEM_SIZE raises `MemoryAddressError`,
whatever instruction is in ID, and nothing else changes (R205); and no other word raises it, a branch
in MEM for one. -/
def Obligations.InvalidAddressHaltsInMEM : Prop :=
  ∀ (i : Instr) (s : State),
    (∀ m, s.exReady → s.exmem.read.ctrl = .active m →
      m.memRead = true ∨ m.memWrite = true → s.params.memSize ≤ s.exmem.read.aluResult.toNat →
      ∃ inputs, exec i s = .next
        { s with
          halted := true, fault := some (.memoryAddressError s.exmem.read.aluResult),
          inputs := inputs }) ∧
    (∀ t a, s.fault = none → exec i s = .next t → t.fault = some (.memoryAddressError a) →
      ∃ m, s.exmem.read.ctrl = .active m ∧ (m.memRead = true ∨ m.memWrite = true) ∧
        a = s.exmem.read.aluResult ∧ s.params.memSize ≤ a.toNat)

/-- R118: with `regWrite = 1`, WB raises `InconsistentControl(WB)` when `memToReg` is `NA`, when
`writeRegNum` is `NA`, or when `memToReg = 1` and `lWDataValue` is `NA`; nothing else changes (R205). -/
def Obligations.InconsistentControlHaltsInWB : Prop :=
  ∀ (i : Instr) (s : State) (b : MemWbSignals), s.exReady → s.memReady →
    s.memwb.read.ctrl = .active b → b.regWrite = true →
    (b.memToReg = none ∨ s.memwb.read.writeRegNum = none ∨
      (b.memToReg = some true ∧ s.memwb.read.lWDataValue = none)) →
    ∃ inputs, exec i s = .next
      { s with halted := true, fault := some (.inconsistentControl .wb), inputs := inputs }

/-- R110: EX raises `InconsistentControl(EX)` for `aluOp = 2` with a function code that is neither add's
nor sub's, and for `aluOp = 0` with `sEOffset = NA`; nothing else changes (R205). -/
def Obligations.InconsistentControlHaltsInEX : Prop :=
  ∀ (i : Instr) (s : State) (c : ControlSignals), s.idex.read.ctrl = .active c →
    ((c.aluOp = .byFunction ∧ s.idex.read.function ≠ some 0x20#6 ∧
        s.idex.read.function ≠ some 0x22#6) ∨
      (c.aluOp = .effectiveAddress ∧ s.idex.read.sEOffset = none)) →
    ∃ inputs, exec i s = .next
      { s with halted := true, fault := some (.inconsistentControl .ex), inputs := inputs }

/-- R206: of several faults in one cycle the first in the order ID, EX, MEM, WB is the one recorded. -/
def Obligations.FirstFaultInStageOrderIsReported : Prop :=
  ∀ s t : State, s.portIn.rst = false → s.halted = false → step s = .next t →
    (∀ r, decode s.ifid.read.instruction = .error r → t.fault = some (decodeFault r)) ∧
    ∀ i, decode s.ifid.read.instruction = .ok i →
      (∀ f, exStage s = .error f → t.fault = some f) ∧
      ∀ e, exStage s = .ok e →
        (∀ f, memStage s = .error f → t.fault = some f) ∧
        ∀ m, memStage s = .ok m → ∀ f, wbStage s = .error f → t.fault = some f

/-- R205: a cycle commits exactly when the word in ID decodes and the words in EX, MEM and WB raise nothing;
otherwise the core halts with a recorded fault and nothing else has changed: no pipeline register, no
register, no memory cell, not the cycle counter, and no record is emitted. -/
def Obligations.CycleCommitsWhollyOrNotAtAll : Prop :=
  ∀ s t : State, s.portIn.rst = false → s.halted = false → step s = .next t →
    (t.halted = false ↔ (∃ i, decode s.ifid.read.instruction = .ok i) ∧ s.CanCommit) ∧
    (t.halted = true → ∃ f inputs,
      t = { s with halted := true, fault := some f, inputs := inputs })

/-- R123: no decoded word reaches an inconsistency: under the invariant, no step records
`InconsistentControl`. -/
def Obligations.DecodedWordsAreNeverInconsistent : Prop :=
  ∀ s t : State, s.Inv → s.halted = false → step s = .next t →
    ∀ stage, t.fault ≠ some (.inconsistentControl stage)

/-! ### Each instruction in ID: completion (R106, R107) -/

/-- R140, R141, R107: with nothing raised behind it, `add` or `sub` in ID answers a next state whose ID/EX
holds CTRL_R, its function code, `NA` for the offset, both raw destination fields, both registers as they
stood at the start of the cycle, and IF/ID's incrPC. -/
def Obligations.ArithmeticInIDCompletes : Prop :=
  ∀ (rd rs rt : RegIdx) (sh : BitVec 5) (s : State), s.halted = false → s.CanCommit →
    let out (fn : Funct) (pc : Word) : IDEX :=
      { ctrl := .active
          { regWrite := true, regDest := some true, memToReg := some false, memRead := false,
            memWrite := false, aluSrc := false, branch := false, aluOp := .byFunction }
        sEOffset := none, function := some fn, writeReg_15_11 := rd, writeReg_20_16 := rt,
        readReg1Value := s.x.read rs, readReg2Value := s.x.read rt, incrPC := pc }
    (∃ t pc, exec (.add rd rs rt sh) s = .next t ∧ t.halted = false ∧ t.idex.read = out 0x20#6 pc ∧
      ∀ p, s.ifid.read.incrPC = some p → pc = p) ∧
    (∃ t pc, exec (.sub rd rs rt sh) s = .next t ∧ t.halted = false ∧ t.idex.read = out 0x22#6 pc ∧
      ∀ p, s.ifid.read.incrPC = some p → pc = p)

/-- R150, R151, R107: the same for `lb` and `lw`, with CTRL_LOAD and the sign-extended displacement. -/
def Obligations.LoadsInIDComplete : Prop :=
  ∀ (rt rs : RegIdx) (imm : Int) (s : State), s.halted = false → s.CanCommit →
    let out (pc : Word) : IDEX :=
      { ctrl := .active
          { regWrite := true, regDest := some false, memToReg := some true, memRead := true,
            memWrite := false, aluSrc := true, branch := false, aluOp := .effectiveAddress }
        sEOffset := some ((BitVec.ofInt 16 imm).signExtend 32), function := none
        writeReg_15_11 := (BitVec.ofInt 16 imm).extractLsb' 11 5, writeReg_20_16 := rt
        readReg1Value := s.x.read rs, readReg2Value := s.x.read rt, incrPC := pc }
    (∃ t pc, exec (.lb rt rs imm) s = .next t ∧ t.halted = false ∧ t.idex.read = out pc ∧
      ∀ p, s.ifid.read.incrPC = some p → pc = p) ∧
    (∃ t pc, exec (.lw rt rs imm) s = .next t ∧ t.halted = false ∧ t.idex.read = out pc ∧
      ∀ p, s.ifid.read.incrPC = some p → pc = p)

/-- R152, R153, R107: the same for `sb` and `sw`, with CTRL_STORE. -/
def Obligations.StoresInIDComplete : Prop :=
  ∀ (rt rs : RegIdx) (imm : Int) (s : State), s.halted = false → s.CanCommit →
    let out (pc : Word) : IDEX :=
      { ctrl := .active
          { regWrite := false, regDest := none, memToReg := none, memRead := false,
            memWrite := true, aluSrc := true, branch := false, aluOp := .effectiveAddress }
        sEOffset := some ((BitVec.ofInt 16 imm).signExtend 32), function := none
        writeReg_15_11 := (BitVec.ofInt 16 imm).extractLsb' 11 5, writeReg_20_16 := rt
        readReg1Value := s.x.read rs, readReg2Value := s.x.read rt, incrPC := pc }
    (∃ t pc, exec (.sb rt rs imm) s = .next t ∧ t.halted = false ∧ t.idex.read = out pc ∧
      ∀ p, s.ifid.read.incrPC = some p → pc = p) ∧
    (∃ t pc, exec (.sw rt rs imm) s = .next t ∧ t.halted = false ∧ t.idex.read = out pc ∧
      ∀ p, s.ifid.read.incrPC = some p → pc = p)

/-- R170, R171, R107: the same for `beq` and `bne`, with CTRL_BRANCH. -/
def Obligations.BranchesInIDComplete : Prop :=
  ∀ (rs rt : RegIdx) (imm : Int) (s : State), s.halted = false → s.CanCommit →
    let out (pc : Word) : IDEX :=
      { ctrl := .active
          { regWrite := false, regDest := none, memToReg := none, memRead := false,
            memWrite := false, aluSrc := false, branch := true, aluOp := .effectiveAddress }
        sEOffset := some ((BitVec.ofInt 16 imm).signExtend 32), function := none
        writeReg_15_11 := (BitVec.ofInt 16 imm).extractLsb' 11 5, writeReg_20_16 := rt
        readReg1Value := s.x.read rs, readReg2Value := s.x.read rt, incrPC := pc }
    (∃ t pc, exec (.beq rs rt imm) s = .next t ∧ t.halted = false ∧ t.idex.read = out pc ∧
      ∀ p, s.ifid.read.incrPC = some p → pc = p) ∧
    (∃ t pc, exec (.bne rs rt imm) s = .next t ∧ t.halted = false ∧ t.idex.read = out pc ∧
      ∀ p, s.ifid.read.incrPC = some p → pc = p)

/-- R106: with nothing raised behind it, the zero word in ID answers a next state whose ID/EX holds the
no-op sentinel; every other ID/EX field keeps its value on the write side. -/
def Obligations.NopInIDCompletes : Prop :=
  ∀ s : State, s.halted = false → s.CanCommit →
    ∃ t, exec .nop s = .next t ∧ t.halted = false ∧
      t.idex.read = { s.idex.write with ctrl := .noOp }

/-- R107: a cycle that commits with a word other than zero in ID leaves in ID/EX the decoder's outputs for
that word, its raw bits [15:11] and [20:16], the registers that its bits [25:21] and [20:16] select as they
stood at the start of the cycle, and IF/ID's incrPC. -/
def Obligations.IDWritesTheWordsFields : Prop :=
  ∀ s t : State, s.portIn.rst = false → s.halted = false → step s = .next t → t.halted = false →
    let w := s.ifid.read.instruction
    w ≠ 0 →
    ∃ d pc, instructionDecoder w s.ifid.read.incrPC = .ok (.active d) ∧
      (∀ p, s.ifid.read.incrPC = some p → pc = p) ∧
      t.idex.read =
        { ctrl := .active d.ctrl, sEOffset := d.sEOffset, function := d.function,
          writeReg_15_11 := w.extractLsb' 11 5, writeReg_20_16 := w.extractLsb' 16 5,
          readReg1Value := s.x.read (w.extractLsb' 21 5),
          readReg2Value := s.x.read (w.extractLsb' 16 5), incrPC := pc }

/-- The frame of all nine instructions in ID: the register file changes only in the register WB names with
`regWrite = 1`, memory only in the byte at the address the word in MEM stores to, whose address is
EX/MEM.aluResult, and where that word stores nothing every address reads as before. The word in ID itself
writes neither. That the edge, of a faulting cycle too, uses up one entry of `inputs` is the model's choice
(log entry 6). -/
def Obligations.FrameOfEveryInstructionInID : Prop :=
  ∀ (i : Instr) (s t : State), exec i s = .next t →
    (∀ r : RegIdx,
      (∀ b, s.memwb.read.ctrl = .active b → b.regWrite = true → s.memwb.read.writeRegNum ≠ some r) →
      t.x.read r = s.x.read r) ∧
    (∀ m, s.exmem.read.ctrl = .active m → m.memWrite = true →
      ∀ a : Nat, a ≠ s.exmem.read.aluResult.toNat → t.readByte a = s.readByte a) ∧
    ((∀ m, s.exmem.read.ctrl = .active m → m.memWrite = false) →
      ∀ a : Nat, t.readByte a = s.readByte a) ∧
    t.params = s.params ∧ t.inputs = s.inputs.tail

/-! ### Each instruction alone: its whole effect, four edges (R140 to R180, R234) -/

/-- R140: `add` alone in the pipeline leaves `x[rd]` the sum modulo 2^32 and nothing else in the
RegisterFile or MainMemory changed, `rd = 0` included. -/
def Obligations.AddWritesTheSum : Prop :=
  ∀ (rd rs rt : RegIdx) (sh : BitVec 5) (s : State), s.Alone →
    ∃ t u, exec (.add rd rs rt sh) s = .next t ∧ runEdges 3 t = .next u ∧ u.halted = false ∧
      u.x = s.x.write rd (s.x.read rs + s.x.read rt) ∧ u.mem = s.mem

/-- R141: the same for `sub`, with the difference `x[rs] - x[rt]`. -/
def Obligations.SubWritesTheDifference : Prop :=
  ∀ (rd rs rt : RegIdx) (sh : BitVec 5) (s : State), s.Alone →
    ∃ t u, exec (.sub rd rs rt sh) s = .next t ∧ runEdges 3 t = .next u ∧ u.halted = false ∧
      u.x = s.x.write rd (s.x.read rs - s.x.read rt) ∧ u.mem = s.mem

/-- R150, R151: `lb` or `lw` alone reads one byte at `x[rs] + sext(imm16)`, whatever its alignment, and
leaves it zero-extended in `x[rt]`; at an invalid address the core halts with `MemoryAddressError` and
neither the RegisterFile nor MainMemory has changed. -/
def Obligations.LoadsWriteTheZeroExtendedByte : Prop :=
  ∀ (rt rs : RegIdx) (imm : Int) (i : Instr) (s : State), s.Alone →
    i = .lb rt rs imm ∨ i = .lw rt rs imm →
    let a := s.x.read rs + (BitVec.ofInt 16 imm).signExtend 32
    ∃ t u, exec i s = .next t ∧ runEdges 3 t = .next u ∧ u.mem = s.mem ∧
      (a.toNat < s.params.memSize →
        u.halted = false ∧ u.x = s.x.write rt ((s.readByte a.toNat).setWidth 32)) ∧
      (s.params.memSize ≤ a.toNat →
        u.halted = true ∧ u.fault = some (.memoryAddressError a) ∧ u.x = s.x)

/-- R152, R153: `sb` or `sw` alone stores the low byte of `x[rt]` at `x[rs] + sext(imm16)`; every other cell
and every register keep their values; at an invalid address the core halts with `MemoryAddressError` and
nothing is stored. -/
def Obligations.StoresWriteTheLowByte : Prop :=
  ∀ (rt rs : RegIdx) (imm : Int) (i : Instr) (s : State), s.Alone →
    Memory.wf s.params s.mem = true → i = .sb rt rs imm ∨ i = .sw rt rs imm →
    let a := s.x.read rs + (BitVec.ofInt 16 imm).signExtend 32
    ∃ t u, exec i s = .next t ∧ runEdges 3 t = .next u ∧ u.x = s.x ∧
      (a.toNat < s.params.memSize →
        u.halted = false ∧ u.readByte a.toNat = (s.x.read rt).extractLsb' 0 8 ∧
        ∀ b : Nat, b ≠ a.toNat → u.readByte b = s.readByte b) ∧
      (s.params.memSize ≤ a.toNat →
        u.halted = true ∧ u.fault = some (.memoryAddressError a) ∧ u.mem = s.mem)

/-- R170, R171: `beq` or `bne` alone changes neither the RegisterFile nor MainMemory and raises nothing,
equal operands or not, and after its EX cycle EX/MEM holds `x[rs] + sext(imm16)` and `NA` for the
destination, the branch target and the zero flag. -/
def Obligations.BranchesChangeNothing : Prop :=
  ∀ (rs rt : RegIdx) (imm : Int) (i : Instr) (s : State), s.Alone →
    i = .beq rs rt imm ∨ i = .bne rs rt imm →
    ∃ t t' u, exec i s = .next t ∧ step t = .next t' ∧ runEdges 2 t' = .next u ∧
      u.halted = false ∧ u.x = s.x ∧ u.mem = s.mem ∧
      t'.exmem.read.aluResult = s.x.read rs + (BitVec.ofInt 16 imm).signExtend 32 ∧
      t'.exmem.read.writeRegNum = none ∧ t'.exmem.read.branchTarget = none ∧
      t'.exmem.read.zero = none

/-- R180: run from reset, N zero words advance incrPC by exactly `4*N` from START_PC, for every START_PC,
and leave RegisterFile and MainMemory unchanged. -/
def Obligations.ZeroWordsFromResetOnlyAdvanceIncrPC : Prop :=
  ∀ (p : Params) (n : Nat) (inputs : List PortInput) (trace : List CycleRecord),
    (State.resetWith p inputs trace).zeroWords n →
    ∃ t, runEdges n (State.resetWith p inputs trace) = .next t ∧ t.halted = false ∧
      t.ifid.read.incrPC = (if n = 0 then none else some (p.startPC + 4 * BitVec.ofNat 32 n)) ∧
      t.x = (State.resetWith p inputs trace).x ∧ t.mem = (State.resetWith p inputs trace).mem

/-! ### The stages and the commit -/

/-- R105: IF takes the word at the port and adds 4 to incrPC, or to START_PC before the first fetch, whatever
instruction is in any stage (so a branch never redirects it). -/
def Obligations.FetchIsAlwaysSequential : Prop :=
  ∀ (i : Instr) (s t : State), s.halted = false → exec i s = .next t → t.halted = false →
    t.ifid.read.instruction = s.portIn.instrIn ∧
    (∀ p, s.ifid.read.incrPC = some p → t.ifid.read.incrPC = some (p + 4)) ∧
    (s.ifid.read.incrPC = none → t.ifid.read.incrPC = some (s.params.startPC + 4))

/-- R108 to R111: in a cycle that commits, EX passes a no-op on and holds every other field, or writes the
sum, the difference or the address, the selected destination, the store value and incrPC, passes five
control bits, and writes `NA` for the branch target and the zero flag. -/
def Obligations.EXWritesItsOutputs : Prop :=
  ∀ (i : Instr) (s t : State), s.halted = false → exec i s = .next t → t.halted = false →
    let d := s.idex.read
    let e := t.exmem.read
    (d.ctrl = .noOp → e = { s.exmem.write with ctrl := .noOp }) ∧
    ∀ c, d.ctrl = .active c →
      e.ctrl = .active
        { memRead := c.memRead, memWrite := c.memWrite, memToReg := c.memToReg,
          regWrite := c.regWrite, branch := c.branch } ∧
      (c.regDest = some false → e.writeRegNum = some d.writeReg_20_16) ∧
      (c.regDest = some true → e.writeRegNum = some d.writeReg_15_11) ∧
      (c.regDest = none → e.writeRegNum = none) ∧
      (c.aluOp = .byFunction → d.function = some 0x20#6 →
        e.aluResult = d.readReg1Value + d.readReg2Value) ∧
      (c.aluOp = .byFunction → d.function = some 0x22#6 →
        e.aluResult = d.readReg1Value - d.readReg2Value) ∧
      (∀ off, c.aluOp = .effectiveAddress → d.sEOffset = some off →
        e.aluResult = d.readReg1Value + off) ∧
      e.sWValue = d.readReg2Value ∧ e.incrPC = d.incrPC ∧ e.branchTarget = none ∧ e.zero = none

/-- R112 to R115: in a cycle that commits, MEM passes a no-op on, holds every other field and leaves
memory, or passes two control bits, the ALU result and the destination on, with the zero-extended byte
for a load and `NA` otherwise, and for a store writes the low byte of `sWValue`. -/
def Obligations.MEMWritesItsOutputs : Prop :=
  ∀ (i : Instr) (s t : State), s.halted = false → exec i s = .next t → t.halted = false →
    Memory.wf s.params s.mem = true →
    let e := s.exmem.read
    let r := t.memwb.read
    (e.ctrl = .noOp → r = { s.memwb.write with ctrl := .noOp } ∧ t.mem = s.mem) ∧
    ∀ m, e.ctrl = .active m →
      r.ctrl = .active { memToReg := m.memToReg, regWrite := m.regWrite } ∧
      r.aluResult = e.aluResult ∧ r.writeRegNum = e.writeRegNum ∧
      (m.memRead = true → r.lWDataValue = some ((s.readByte e.aluResult.toNat).setWidth 32)) ∧
      (m.memRead = false → r.lWDataValue = none) ∧
      (m.memWrite = true → t.readByte e.aluResult.toNat = e.sWValue.extractLsb' 0 8 ∧
        ∀ a : Nat, a ≠ e.aluResult.toNat → t.readByte a = s.readByte a) ∧
      (m.memWrite = false → t.mem = s.mem)

/-- R116, R117: in a cycle that commits, WB with a no-op or without `regWrite` writes nothing, and otherwise
writes the loaded value (`memToReg = 1`) or the ALU result (`memToReg = 0`) to `writeRegNum`, 0
included. -/
def Obligations.WBWritesTheSelectedValue : Prop :=
  ∀ (i : Instr) (s t : State), s.halted = false → exec i s = .next t → t.halted = false →
    let r := s.memwb.read
    (r.ctrl = .noOp → t.x = s.x) ∧
    ∀ b, r.ctrl = .active b →
      (b.regWrite = false → t.x = s.x) ∧
      (∀ n v, b.regWrite = true → b.memToReg = some true → r.writeRegNum = some n →
        r.lWDataValue = some v → t.x = s.x.write n v) ∧
      (∀ n, b.regWrite = true → b.memToReg = some false → r.writeRegNum = some n →
        t.x = s.x.write n r.aluResult)

/-- R104: calling commit twice leaves the read side, and all else, as after the first call. -/
def Obligations.CommitIsIdempotent : Prop :=
  ∀ s : State, s.commit.commit = s.commit

/-- R119, R34: a cycle that raises no fault emits exactly one record, with the cycle's number, the RegisterFile
after its WB write and, for each pipeline register, the write side as it commits and the read side from
the start of the cycle, and it advances the cycle counter by 1; a faulting cycle emits none. -/
def Obligations.CommittedCycleEmitsItsRecord : Prop :=
  ∀ (i : Instr) (s t : State), s.halted = false → exec i s = .next t →
    (t.halted = false →
      t.cycle = s.cycle + 1 ∧
      t.trace = s.trace ++
        [{ cycle := s.cycle, registers := t.x
           ifid := ⟨t.ifid.read, s.ifid.read⟩, idex := ⟨t.idex.read, s.idex.read⟩
           exmem := ⟨t.exmem.read, s.exmem.read⟩, memwb := ⟨t.memwb.read, s.memwb.read⟩ }]) ∧
    (t.halted = true → t.trace = s.trace)

/-- R22: the register file is changed only by WB, in the register it names and only with `regWrite = 1`; a
reset edge aside. -/
def Obligations.OnlyWBWritesTheRegisterFile : Prop :=
  ∀ (s t : State) (r : RegIdx), s.portIn.rst = false → step s = .next t →
    t.x.read r ≠ s.x.read r →
    ∃ b, s.memwb.read.ctrl = .active b ∧ b.regWrite = true ∧ s.memwb.read.writeRegNum = some r

/-- R54: main memory is changed only by MEM, in the cell it addresses and only with `memWrite = 1`; a reset
edge aside. -/
def Obligations.OnlyMEMWritesMainMemory : Prop :=
  ∀ (s t : State) (a : Nat), s.portIn.rst = false → step s = .next t →
    t.readByte a ≠ s.readByte a →
    ∃ m, s.exmem.read.ctrl = .active m ∧ m.memWrite = true ∧ a = s.exmem.read.aluResult.toNat

/-- R23: entry 0 of the RegisterFile is 0 at reset, and takes and keeps a written value like any other. -/
def Obligations.RegisterZeroIsWritable : Prop :=
  State.reset.x.read 0 = 0 ∧
  ∀ (x : RegFile) (v : Word),
    (x.write 0 v).read 0 = v ∧ ∀ r : RegIdx, r ≠ 0 → (x.write 0 v).read r = x.read r

/-- R82: `add` and `sub` do the same whatever shamt is. -/
def Obligations.ShamtIsIgnored : Prop :=
  ∀ (rd rs rt : RegIdx) (sh sh' : BitVec 5) (s : State),
    exec (.add rd rs rt sh) s = exec (.add rd rs rt sh') s ∧
    exec (.sub rd rs rt sh) s = exec (.sub rd rs rt sh') s

/-- R84: `lw` does what `lb` does, `sw` what `sb` does, and (R171) `bne` what `beq` does. -/
def Obligations.TwinMnemonicsBehaveAlike : Prop :=
  ∀ (r q : RegIdx) (imm : Int) (s : State),
    exec (.lw r q imm) s = exec (.lb r q imm) s ∧ exec (.sw r q imm) s = exec (.sb r q imm) s ∧
    exec (.bne r q imm) s = exec (.beq r q imm) s

/-- Two canonical memories that read alike at every valid address are the same data (log entry 4). -/
def Obligations.CanonicalMemoriesReadingAlikeAreEqual : Prop :=
  ∀ (p : Params) (m m' : List Host.Cell), Memory.wf p m = true → Memory.wf p m' = true →
    (∀ a : Nat, a < p.memSize → Memory.read p m a = Memory.read p m' a) → m = m'

/-! ### The whole machine -/

/-- The reset state meets the invariants, for every choice of the open parameters. -/
def Obligations.ResetMeetsTheInvariants : Prop :=
  State.reset.Inv ∧ State.reset.TagInv ∧
  ∀ (p : Params) (inputs : List PortInput) (trace : List CycleRecord),
    (State.resetWith p inputs trace).Inv ∧ (State.resetWith p inputs trace).TagInv

/-- Every step keeps the invariant: memory stays canonical, both sides of each pipeline register agree
(R33), the pipeline registers hold only what decoded words leave there (R123), a load's value is a
zero-extended byte (R55), and the core is halted exactly when a fault is recorded. -/
def Obligations.EveryStepKeepsTheInvariant : Prop :=
  ∀ s t : State, s.Inv → step s = .next t → t.Inv

/-- R24, R105: in cycle c, IF/ID.incrPC is `START_PC + 4*(c-1)` modulo 2^32, and each later register carries
4 less; every step keeps that. -/
def Obligations.EveryStepKeepsTheIncrPCTags : Prop :=
  ∀ s t : State, s.Inv → s.TagInv → step s = .next t → t.TagInv

/-- R234, R235 and the rules of each instruction: the whole effect of every instruction whatever words are
in the other stages, from any state, when no edge resets and no fault comes before its WB. The sources are
read at the start of the ID cycle; memory is read or written two edges later and the register is written at
the third edge after ID. -/
def Obligations.EveryInstructionTakesEffectInFlight : Prop :=
  ∀ (i : Instr) (s s1 s2 s3 s4 : State), s.halted = false → s.rstLow 4 →
    exec i s = .next s1 → step s1 = .next s2 → step s2 = .next s3 → step s3 = .next s4 →
    s4.halted = false →
    match i with
    | .add rd rs rt _ => s3.mem = s2.mem ∧ s4.x = s3.x.write rd (s.x.read rs + s.x.read rt)
    | .sub rd rs rt _ => s3.mem = s2.mem ∧ s4.x = s3.x.write rd (s.x.read rs - s.x.read rt)
    | .lb rt rs imm => s3.mem = s2.mem ∧
        s4.x = s3.x.write rt ((s2.readByte (effectiveAddress (s.x.read rs) imm).toNat).setWidth 32)
    | .lw rt rs imm => s3.mem = s2.mem ∧
        s4.x = s3.x.write rt ((s2.readByte (effectiveAddress (s.x.read rs) imm).toNat).setWidth 32)
    | .sb rt rs imm => s4.x = s3.x ∧
        s3.mem = Memory.write s.params (effectiveAddress (s.x.read rs) imm).toNat
          ((s.x.read rt).extractLsb' 0 8) s2.mem
    | .sw rt rs imm => s4.x = s3.x ∧
        s3.mem = Memory.write s.params (effectiveAddress (s.x.read rs) imm).toNat
          ((s.x.read rt).extractLsb' 0 8) s2.mem
    | .beq _ _ _ => s3.mem = s2.mem ∧ s4.x = s3.x
    | .bne _ _ _ => s3.mem = s2.mem ∧ s4.x = s3.x
    | .nop => s3.mem = s2.mem ∧ s4.x = s3.x

/-- The rows of spec/opcode_table.json, by match and mask: whichever word of a row is in ID, alone in the
pipeline, four edges later the registers and memory are as the row's rule says (R140, R141, R150 to R153,
R170, R171, R180); a load or store at an invalid address halts the core and leaves both as they
were. -/
def Obligations.EveryTableRowHasItsEffect : Prop :=
  ∀ s : State, s.Alone → s.portIn.rst = false → Memory.wf s.params s.mem = true →
    let w := s.ifid.read.instruction
    let rs := w.extractLsb' 21 5
    let rt := w.extractLsb' 16 5
    let rd := w.extractLsb' 11 5
    let a := s.x.read rs + (w.extractLsb' 0 16).signExtend 32
    ∃ u, runEdges 4 s = .next u ∧
      (w &&& 0xFC00003F = 0x00000020 →
        u.x = s.x.write rd (s.x.read rs + s.x.read rt) ∧ u.mem = s.mem ∧ u.halted = false) ∧
      (w &&& 0xFC00003F = 0x00000022 →
        u.x = s.x.write rd (s.x.read rs - s.x.read rt) ∧ u.mem = s.mem ∧ u.halted = false) ∧
      (w &&& 0xFC000000 = 0x80000000 ∨ w &&& 0xFC000000 = 0x8C000000 → u.mem = s.mem ∧
        (a.toNat < s.params.memSize →
          u.x = s.x.write rt ((s.readByte a.toNat).setWidth 32) ∧ u.halted = false) ∧
        (s.params.memSize ≤ a.toNat → u.x = s.x ∧ u.fault = some (.memoryAddressError a))) ∧
      (w &&& 0xFC000000 = 0xA0000000 ∨ w &&& 0xFC000000 = 0xAC000000 → u.x = s.x ∧
        (a.toNat < s.params.memSize →
          u.readByte a.toNat = (s.x.read rt).extractLsb' 0 8 ∧ u.halted = false ∧
          ∀ b : Nat, b ≠ a.toNat → u.readByte b = s.readByte b) ∧
        (s.params.memSize ≤ a.toNat → u.mem = s.mem ∧ u.fault = some (.memoryAddressError a))) ∧
      (w &&& 0xFC000000 = 0x10000000 ∨ w &&& 0xFC000000 = 0x14000000 ∨ w = 0x00000000 →
        u.x = s.x ∧ u.mem = s.mem ∧ u.halted = false)

/-- R235: the three words that follow an instruction read the RegisterFile as if another instruction had been
in its place: they cannot see its register write. -/
def Obligations.NextThreeWordsReadTheOldRegisters : Prop :=
  ∀ (i j : Instr) (s s1 s2 s3 t1 t2 t3 : State), s.halted = false → s.rstLow 3 →
    exec i s = .next s1 → step s1 = .next s2 → step s2 = .next s3 → s3.halted = false →
    exec j s = .next t1 → step t1 = .next t2 → step t2 = .next t3 → t3.halted = false →
    t1.x = s1.x ∧ t2.x = s2.x ∧ t3.x = s3.x

/-- R61, R238: a load right behind a store to the same address gets the stored byte, whatever else is in
flight. -/
def Obligations.LoadBehindStoreSeesTheStoredByte : Prop :=
  ∀ (i j : Instr) (rt rs rt' rs' : RegIdx) (imm imm' : Int) (s s1 s2 s3 s4 s5 : State),
    s.halted = false → s.rstLow 5 → Memory.wf s.params s.mem = true →
    i = .sb rt rs imm ∨ i = .sw rt rs imm → j = .lb rt' rs' imm' ∨ j = .lw rt' rs' imm' →
    exec i s = .next s1 → decode s1.ifid.read.instruction = .ok j →
    effectiveAddress (s1.x.read rs') imm' = effectiveAddress (s.x.read rs) imm →
    step s1 = .next s2 → step s2 = .next s3 → step s3 = .next s4 → step s4 = .next s5 →
    s5.halted = false →
    s5.x.read rt' = ((s.x.read rt).extractLsb' 0 8).setWidth 32

/-- R24, R34: no register, no byte of memory and no fault depends on incrPC, on START_PC or on the cycle
counter: states that differ only there, and in the emitted records, still differ only there after a
step. -/
def Obligations.TagsInfluenceNothingElse : Prop :=
  ∀ s t s' t' : State, SameButTags s t → step s = .next s' → step t = .next t' → SameButTags s' t'
end

