-- ==== Sys2Proof/Laws/Fields.lean ====
section
/-! SUPPORT. Every field of an encoded word is the operand it was made from (30_encoding.md R71). -/

namespace Sys2Proof

variable (rs rt rd : RegIdx) (sh : BitVec 5) (fn : Funct) (f : IForm) (imm : Int)

/-- The bits of an R-format word (R71). -/
theorem getLsbD_encodeR (i : Nat) : (encodeR rs rt rd sh fn).getLsbD i =
    if i < 6 then fn.getLsbD i else if i < 11 then sh.getLsbD (i - 6)
    else if i < 16 then rd.getLsbD (i - 11) else if i < 21 then rt.getLsbD (i - 16)
    else if i < 26 then rs.getLsbD (i - 21) else false := by
  unfold encodeR
  rw [BitVec.getLsbD_append (n := 26), BitVec.getLsbD_append (n := 21),
    BitVec.getLsbD_append (n := 16), BitVec.getLsbD_append (n := 11), BitVec.getLsbD_append (n := 6)]
  simp only [Nat.sub_sub, BitVec.getLsbD_zero]
  split_ifs <;> first | rfl | omega

/-- The bits of an I-format word (R71). -/
theorem getLsbD_encodeI (i : Nat) : (encodeI f rs rt imm).getLsbD i =
    if i < 16 then (BitVec.ofInt 16 imm).getLsbD i else if i < 21 then rt.getLsbD (i - 16)
    else if i < 26 then rs.getLsbD (i - 21) else f.opcode.getLsbD (i - 26) := by
  unfold encodeI
  rw [BitVec.getLsbD_append (n := 16), BitVec.getLsbD_append (n := 11), BitVec.getLsbD_append (n := 6)]
  simp only [Nat.sub_sub]
  split_ifs <;> first | rfl | omega

@[simp] theorem opcodeOf_encodeR : opcodeOf (encodeR rs rt rd sh fn) = 0 := by
  apply BitVec.eq_of_getLsbD_eq
  intro i hi
  simp only [opcodeOf, BitVec.getLsbD_extractLsb', getLsbD_encodeR, hi, decide_true, Bool.true_and]
  split_ifs <;> first | omega | simp

@[simp] theorem rsOf_encodeR : rsOf (encodeR rs rt rd sh fn) = rs := by
  apply BitVec.eq_of_getLsbD_eq
  intro i hi
  simp only [rsOf, BitVec.getLsbD_extractLsb', getLsbD_encodeR, hi, decide_true, Bool.true_and]
  split_ifs <;> first | omega | (congr 1; omega)

@[simp] theorem rtOf_encodeR : rtOf (encodeR rs rt rd sh fn) = rt := by
  apply BitVec.eq_of_getLsbD_eq
  intro i hi
  simp only [rtOf, BitVec.getLsbD_extractLsb', getLsbD_encodeR, hi, decide_true, Bool.true_and]
  split_ifs <;> first | omega | (congr 1; omega)

@[simp] theorem rdOf_encodeR : rdOf (encodeR rs rt rd sh fn) = rd := by
  apply BitVec.eq_of_getLsbD_eq
  intro i hi
  simp only [rdOf, BitVec.getLsbD_extractLsb', getLsbD_encodeR, hi, decide_true, Bool.true_and]
  split_ifs <;> first | omega | (congr 1; omega)

@[simp] theorem shamtOf_encodeR : shamtOf (encodeR rs rt rd sh fn) = sh := by
  apply BitVec.eq_of_getLsbD_eq
  intro i hi
  simp only [shamtOf, BitVec.getLsbD_extractLsb', getLsbD_encodeR, hi, decide_true, Bool.true_and]
  split_ifs <;> first | omega | (congr 1; omega)

@[simp] theorem functOf_encodeR : functOf (encodeR rs rt rd sh fn) = fn := by
  apply BitVec.eq_of_getLsbD_eq
  intro i hi
  simp only [functOf, BitVec.getLsbD_extractLsb', getLsbD_encodeR, hi, decide_true, Bool.true_and]
  split_ifs <;> first | omega | (congr 1; omega)

@[simp] theorem opcodeOf_encodeI : opcodeOf (encodeI f rs rt imm) = f.opcode := by
  apply BitVec.eq_of_getLsbD_eq
  intro i hi
  simp only [opcodeOf, BitVec.getLsbD_extractLsb', getLsbD_encodeI, hi, decide_true, Bool.true_and]
  split_ifs <;> first | omega | (congr 1; omega)

@[simp] theorem rsOf_encodeI : rsOf (encodeI f rs rt imm) = rs := by
  apply BitVec.eq_of_getLsbD_eq
  intro i hi
  simp only [rsOf, BitVec.getLsbD_extractLsb', getLsbD_encodeI, hi, decide_true, Bool.true_and]
  split_ifs <;> first | omega | (congr 1; omega)

@[simp] theorem rtOf_encodeI : rtOf (encodeI f rs rt imm) = rt := by
  apply BitVec.eq_of_getLsbD_eq
  intro i hi
  simp only [rtOf, BitVec.getLsbD_extractLsb', getLsbD_encodeI, hi, decide_true, Bool.true_and]
  split_ifs <;> first | omega | (congr 1; omega)

@[simp] theorem imm16Of_encodeI : imm16Of (encodeI f rs rt imm) = BitVec.ofInt 16 imm := by
  apply BitVec.eq_of_getLsbD_eq
  intro i hi
  simp only [imm16Of, BitVec.getLsbD_extractLsb', getLsbD_encodeI, hi, decide_true, Bool.true_and]
  split_ifs <;> first | omega | (congr 1; omega)

/-- The opcode table names each row by its own opcode (R76). -/
@[simp] theorem ofOpcode_opcode : IForm.ofOpcode f.opcode = some f := by cases f <;> rfl

/-- No row of the opcode table has opcode 0, which is R-format (R72). -/
theorem opcode_ne_zero : f.opcode ≠ 0 := by cases f <;> decide

/-- A row found for an opcode has that opcode. -/
theorem opcode_of_ofOpcode {op : Opcode} (h : IForm.ofOpcode op = some f) : f.opcode = op := by
  simpa using List.find?_some h

end Sys2Proof
end

