-- ==== Sys2Proof/Laws/Memory.lean ====
section
/-! SUPPORT. MainMemory: a written cell reads back, other cells keep their value, and every operation
keeps the canonical form (20_memory.md R50 to R53). -/

namespace Sys2Proof.Machine

variable {p : Params} {m : List Host.Cell} {a lo : Nat} {v : Byte}

/-- A cell below every listed one reads as MEM_INIT. -/
theorem Memory.read_below (h : Memory.wfFrom p lo m = true) (ha : a < lo) :
    Memory.read p m a = Memory.unlisted p a := by
  induction m generalizing lo with
  | nil => rfl
  | cons c m ih =>
    obtain ⟨b, u⟩ := c
    simp only [Memory.wfFrom, Bool.and_eq_true, decide_eq_true_eq] at h
    have hb : a ≠ b := by omega
    simpa [Memory.read, hb] using ih h.2 (by omega)

/-- The canonical form from `lo` up is one from any lower address. -/
theorem Memory.wfFrom_mono {lo' : Nat} (h : Memory.wfFrom p lo m = true) (hl : lo' ≤ lo) :
    Memory.wfFrom p lo' m = true := by
  cases m with
  | nil => rfl
  | cons c m =>
    obtain ⟨b, u⟩ := c
    simp only [Memory.wfFrom, Bool.and_eq_true, decide_eq_true_eq] at h ⊢
    exact ⟨⟨⟨by omega, h.1.1.2⟩, h.1.2⟩, h.2⟩

/-- A written cell reads as written (R53). -/
theorem Memory.read_write_same (h : Memory.wfFrom p lo m = true) :
    Memory.read p (Memory.write p a v m) a = v := by
  induction m generalizing lo with
  | nil => by_cases hv : v = Memory.unlisted p a <;> simp [Memory.write, Memory.read, hv]
  | cons c m ih =>
    obtain ⟨b, u⟩ := c
    have h' := h
    simp only [Memory.wfFrom, Bool.and_eq_true, decide_eq_true_eq] at h
    by_cases hab : a < b
    · by_cases hv : v = Memory.unlisted p a
      · have hw : Memory.wfFrom p b ((b, u) :: m) = true := by
          simp only [Memory.wfFrom, Bool.and_eq_true, decide_eq_true_eq]
          exact ⟨⟨⟨le_rfl, h.1.1.2⟩, h.1.2⟩, h.2⟩
        simpa [Memory.write, hab, hv] using Memory.read_below hw hab
      · simp [Memory.write, hab, hv, Memory.read]
    · by_cases he : a = b
      · by_cases hv : v = Memory.unlisted p a
        · subst he
          simpa [Memory.write, hv] using Memory.read_below h.2 (Nat.lt_succ_self a)
        · subst he
          simp [Memory.write, hv, Memory.read]
      · simpa [Memory.write, hab, he, Memory.read] using ih h.2

/-- A write leaves every other cell alone (R53). -/
theorem Memory.read_write_other {b : Nat} (hb : b ≠ a) :
    Memory.read p (Memory.write p a v m) b = Memory.read p m b := by
  induction m with
  | nil => by_cases hv : v = Memory.unlisted p a <;> simp [Memory.write, Memory.read, hv, hb]
  | cons c m ih =>
    obtain ⟨k, u⟩ := c
    by_cases h1 : a < k
    · by_cases hv : v = Memory.unlisted p a <;> simp [Memory.write, h1, hv, Memory.read, hb]
    · by_cases h2 : a = k
      · subst h2
        by_cases hv : v = Memory.unlisted p a <;> simp [Memory.write, hv, Memory.read, hb]
      · simp [Memory.write, h1, h2, Memory.read, ih]

/-- A write to a valid address keeps the canonical form. -/
theorem Memory.write_wfFrom (h : Memory.wfFrom p lo m = true) (hlo : lo ≤ a) (ha : a < p.memSize) :
    Memory.wfFrom p lo (Memory.write p a v m) = true := by
  induction m generalizing lo with
  | nil =>
    by_cases hv : v = Memory.unlisted p a <;> simp [Memory.write, Memory.wfFrom, hv, hlo, ha]
  | cons c m ih =>
    obtain ⟨b, u⟩ := c
    have h0 := h
    simp only [Memory.wfFrom, Bool.and_eq_true, decide_eq_true_eq] at h
    by_cases h1 : a < b
    · by_cases hv : v = Memory.unlisted p a
      · simpa [Memory.write, h1, hv] using h0
      · simp only [Memory.write, h1, hv, if_true, if_false, Memory.wfFrom, Bool.and_eq_true,
          decide_eq_true_eq]
        exact ⟨⟨⟨hlo, ha⟩, hv⟩, ⟨⟨by omega, h.1.1.2⟩, h.1.2⟩, h.2⟩
    · by_cases h2 : a = b
      · subst h2
        by_cases hv : v = Memory.unlisted p a
        · simpa [Memory.write, hv] using Memory.wfFrom_mono h.2 (by omega)
        · simp only [Memory.write, lt_irrefl, hv, if_true, if_false, Memory.wfFrom, Bool.and_eq_true,
            decide_eq_true_eq]
          exact ⟨⟨⟨hlo, ha⟩, hv⟩, h.2⟩
      · simp only [Memory.write, h1, h2, if_false, Memory.wfFrom, Bool.and_eq_true, decide_eq_true_eq]
        exact ⟨h.1, ih h.2 (by omega)⟩

/-- Every memory operation keeps the canonical form: a store (R53). -/
theorem memWrite_wf {s : State} {w : Word} {m' : List Host.Cell}
    (hs : Memory.wf s.params s.mem = true) (h : memWrite s w v = .ok m') :
    Memory.wf s.params m' = true := by
  simp only [memWrite, State.validAddress, decide_eq_true_eq] at h
  split at h
  · next ha => cases h; exact Memory.write_wfFrom hs (Nat.zero_le _) ha
  · cases h

/-- The reset memory is canonical. -/
theorem reset_memory_wf : Memory.wf State.reset.params State.reset.mem = true := rfl

/-- A read answers the cell's value or the address fault, and nothing else (R52). -/
theorem memRead_eq (s : State) (w : Word) :
    memRead s w = if w.toNat < s.params.memSize then .ok (s.readByte w.toNat)
      else .error (.memoryAddressError w) := by
  simp [memRead, State.validAddress]

/-- A write answers the memory with one cell changed or the address fault, and nothing else (R53). -/
theorem memWrite_eq (s : State) (w : Word) (v : Byte) :
    memWrite s w v = if w.toNat < s.params.memSize then .ok (Memory.write s.params w.toNat v s.mem)
      else .error (.memoryAddressError w) := by
  simp [memWrite, State.validAddress]

/-- Every size and every seed are the parameters of some core (R4, log entry 3). -/
theorem Params.every_seed (start top : Word) (f : Nat → Byte) :
    ∃ q : Params, q.startPC = start ∧ q.memTop = top ∧ ∀ a < q.memSize, q.seed a = f a := by
  refine ⟨⟨start, top, (List.range (top.toNat + 1)).map f⟩, rfl, rfl, ?_⟩
  intro a ha
  simp only [Params.memSize] at ha
  simp [Params.seed, List.getD, ha]

end Sys2Proof.Machine
end

