-- ==== Sys2Proof/Laws/PerInstr.lean ====
section
/-! SUPPORT. Statements made one instruction at a time. -/

namespace Sys2Proof.Laws.TableRow

/-- `mask` of the instruction's row in spec/opcode_table.json. -/
def mask : Instr → Word
  | .add _ _ _ _ => 0xFC00003F
  | .sub _ _ _ _ => 0xFC00003F
  | .lb _ _ _ => 0xFC000000
  | .lw _ _ _ => 0xFC000000
  | .sb _ _ _ => 0xFC000000
  | .sw _ _ _ => 0xFC000000
  | .beq _ _ _ => 0xFC000000
  | .bne _ _ _ => 0xFC000000
  | .nop => 0xFFFFFFFF

/-- `match` of the instruction's row in spec/opcode_table.json. -/
def pattern : Instr → Word
  | .add _ _ _ _ => 0x00000020
  | .sub _ _ _ _ => 0x00000022
  | .lb _ _ _ => 0x80000000
  | .lw _ _ _ => 0x8C000000
  | .sb _ _ _ => 0xA0000000
  | .sw _ _ _ => 0xAC000000
  | .beq _ _ _ => 0x10000000
  | .bne _ _ _ => 0x14000000
  | .nop => 0x00000000

/-- An encoded instruction matches its row of the opcode table. -/
def Statement (i : Instr) : Prop := encode i &&& mask i = pattern i

/-- The fixed bits of an R-format word. -/
theorem encodeR_fixed (rs rt rd : RegIdx) (sh : BitVec 5) (fn : Funct) :
    encodeR rs rt rd sh fn &&& 0xFC00003F = fn.setWidth 32 := by
  apply BitVec.eq_of_getLsbD_eq
  intro i hi
  rw [BitVec.getLsbD_and, getLsbD_encodeR]
  interval_cases i <;> simp

/-- The fixed bits of an I-format word. -/
theorem encodeI_fixed (f : IForm) (rs rt : RegIdx) (imm : Int) :
    encodeI f rs rt imm &&& 0xFC000000 = f.opcode.setWidth 32 <<< 26 := by
  apply BitVec.eq_of_getLsbD_eq
  intro i hi
  rw [BitVec.getLsbD_and, getLsbD_encodeI]
  interval_cases i <;> simp

theorem add (rd rs rt : RegIdx) (sh : BitVec 5) : Statement (.add rd rs rt sh) :=
  (encodeR_fixed rs rt rd sh functAdd).trans rfl

theorem sub (rd rs rt : RegIdx) (sh : BitVec 5) : Statement (.sub rd rs rt sh) :=
  (encodeR_fixed rs rt rd sh functSub).trans rfl

theorem lb (rt rs : RegIdx) (imm : Int) : Statement (.lb rt rs imm) :=
  (encodeI_fixed .lb rs rt imm).trans rfl

theorem lw (rt rs : RegIdx) (imm : Int) : Statement (.lw rt rs imm) :=
  (encodeI_fixed .lw rs rt imm).trans rfl

theorem sb (rt rs : RegIdx) (imm : Int) : Statement (.sb rt rs imm) :=
  (encodeI_fixed .sb rs rt imm).trans rfl

theorem sw (rt rs : RegIdx) (imm : Int) : Statement (.sw rt rs imm) :=
  (encodeI_fixed .sw rs rt imm).trans rfl

theorem beq (rs rt : RegIdx) (imm : Int) : Statement (.beq rs rt imm) :=
  (encodeI_fixed .beq rs rt imm).trans rfl

theorem bne (rs rt : RegIdx) (imm : Int) : Statement (.bne rs rt imm) :=
  (encodeI_fixed .bne rs rt imm).trans rfl

theorem nop : Statement .nop := rfl

end Sys2Proof.Laws.TableRow
end

