-- ==== Sys2Proof/Laws/Registers.lean ====
section
/-! SUPPORT. What reading and writing the RegisterFile do (10_state.md R21 to R23). -/

namespace Sys2Proof.Machine

/-- Every entry, entry 0 too, reads as last written (R23). -/
@[simp] theorem RegFile.read_write_same (x : RegFile) (r : RegIdx) (v : Word) :
    (x.write r v).read r = v := by
  simp [RegFile.read, RegFile.write]

/-- A write leaves every other entry alone. -/
theorem RegFile.read_write_other (x : RegFile) {r q : RegIdx} (v : Word) (h : q ≠ r) :
    (x.write r v).read q = x.read q := by
  have hn : r.toNat ≠ q.toNat := fun e => h (BitVec.eq_of_toNat_eq e.symm)
  simp [RegFile.read, RegFile.write, Vector.getElem_set_ne _ _ hn]

/-- Two register files that read alike are the same. -/
theorem RegFile.ext_read {x y : RegFile} (h : ∀ r : RegIdx, x.read r = y.read r) : x = y := by
  apply Vector.ext
  intro i hi
  have := h (BitVec.ofNat 5 i)
  simpa [RegFile.read, Nat.mod_eq_of_lt hi] using this

/-- The seed (R231). -/
theorem RegFile.init_read : ∀ r : RegIdx, RegFile.init.read r = Config.rfInit r.toNat := by decide

end Sys2Proof.Machine
end

