-- ==== Sys2Proof/Laws/State.lean ====
section
/-! SUPPORT. One lemma per field for each update of the state: taking a fault, an idle edge, a reset edge,
the end of a cycle, feeding words and placing a word in ID. -/

namespace Sys2Proof.Machine

variable (s : State) (f : FaultRecord) (d : IDEX) (w : OlderWork)

/-! ### idleEdge and edgePassed -/

@[simp] theorem edgePassed_x : s.edgePassed.x = s.x := rfl
@[simp] theorem edgePassed_mem : s.edgePassed.mem = s.mem := rfl
@[simp] theorem edgePassed_ifid : s.edgePassed.ifid = s.ifid := rfl
@[simp] theorem edgePassed_idex : s.edgePassed.idex = s.idex := rfl
@[simp] theorem edgePassed_exmem : s.edgePassed.exmem = s.exmem := rfl
@[simp] theorem edgePassed_memwb : s.edgePassed.memwb = s.memwb := rfl
@[simp] theorem edgePassed_cycle : s.edgePassed.cycle = s.cycle := rfl
@[simp] theorem edgePassed_halted : s.edgePassed.halted = s.halted := rfl
@[simp] theorem edgePassed_fault : s.edgePassed.fault = s.fault := rfl
@[simp] theorem edgePassed_params : s.edgePassed.params = s.params := rfl
@[simp] theorem edgePassed_inputs : s.edgePassed.inputs = s.inputs.tail := rfl
@[simp] theorem edgePassed_trace : s.edgePassed.trace = s.trace := rfl
@[simp] theorem idleEdge_eq : idleEdge s = s.edgePassed := rfl

/-! ### raiseFault (R205) -/

@[simp] theorem raiseFault_x : (raiseFault f s).x = s.x := rfl
@[simp] theorem raiseFault_mem : (raiseFault f s).mem = s.mem := rfl
@[simp] theorem raiseFault_ifid : (raiseFault f s).ifid = s.ifid := rfl
@[simp] theorem raiseFault_idex : (raiseFault f s).idex = s.idex := rfl
@[simp] theorem raiseFault_exmem : (raiseFault f s).exmem = s.exmem := rfl
@[simp] theorem raiseFault_memwb : (raiseFault f s).memwb = s.memwb := rfl
@[simp] theorem raiseFault_cycle : (raiseFault f s).cycle = s.cycle := rfl
@[simp] theorem raiseFault_halted : (raiseFault f s).halted = true := rfl
@[simp] theorem raiseFault_fault : (raiseFault f s).fault = some f := rfl
@[simp] theorem raiseFault_params : (raiseFault f s).params = s.params := rfl
@[simp] theorem raiseFault_inputs : (raiseFault f s).inputs = s.inputs.tail := rfl
@[simp] theorem raiseFault_trace : (raiseFault f s).trace = s.trace := rfl

/-! ### The end of a cycle (R100, R103) -/

@[simp] theorem endCycle_x : (endCycle (stagesRun d w s)).x = w.x := rfl
@[simp] theorem endCycle_mem : (endCycle (stagesRun d w s)).mem = w.mem := rfl
@[simp] theorem endCycle_ifid : (endCycle (stagesRun d w s)).ifid = .both (ifStage s) := rfl
@[simp] theorem endCycle_idex : (endCycle (stagesRun d w s)).idex = .both d := rfl
@[simp] theorem endCycle_exmem : (endCycle (stagesRun d w s)).exmem = .both w.exmem := rfl
@[simp] theorem endCycle_memwb : (endCycle (stagesRun d w s)).memwb = .both w.memwb := rfl
@[simp] theorem endCycle_cycle : (endCycle (stagesRun d w s)).cycle = s.cycle + 1 := rfl
@[simp] theorem endCycle_halted : (endCycle (stagesRun d w s)).halted = s.halted := rfl
@[simp] theorem endCycle_fault : (endCycle (stagesRun d w s)).fault = s.fault := rfl
@[simp] theorem endCycle_params : (endCycle (stagesRun d w s)).params = s.params := rfl
@[simp] theorem endCycle_inputs : (endCycle (stagesRun d w s)).inputs = s.inputs.tail := rfl
@[simp] theorem endCycle_trace :
    (endCycle (stagesRun d w s)).trace = s.trace ++ [(stagesRun d w s).record] := rfl

/-! ### resetEdge (R231) -/

@[simp] theorem resetEdge_x : (resetEdge s).x = RegFile.init := rfl
@[simp] theorem resetEdge_mem : (resetEdge s).mem = [] := rfl
@[simp] theorem resetEdge_ifid : (resetEdge s).ifid = .both IFID.reset := rfl
@[simp] theorem resetEdge_idex : (resetEdge s).idex = .both IDEX.reset := rfl
@[simp] theorem resetEdge_exmem : (resetEdge s).exmem = .both EXMEM.reset := rfl
@[simp] theorem resetEdge_memwb : (resetEdge s).memwb = .both MEMWB.reset := rfl
@[simp] theorem resetEdge_cycle : (resetEdge s).cycle = 1 := rfl
@[simp] theorem resetEdge_halted : (resetEdge s).halted = false := rfl
@[simp] theorem resetEdge_fault : (resetEdge s).fault = none := rfl
@[simp] theorem resetEdge_params : (resetEdge s).params = s.params := rfl
@[simp] theorem resetEdge_inputs : (resetEdge s).inputs = s.inputs.tail := rfl
@[simp] theorem resetEdge_trace : (resetEdge s).trace = s.trace := rfl

/-! ### Double buffers (R28, R103) -/

@[simp] theorem both_read {α : Type} (a : α) : (Buffered.both a).read = a := rfl
@[simp] theorem both_write {α : Type} (a : α) : (Buffered.both a).write = a := rfl
@[simp] theorem commit_read {α : Type} (b : Buffered α) : b.commit.read = b.write := rfl
@[simp] theorem commit_write {α : Type} (b : Buffered α) : b.commit.write = b.write := rfl

/-! ### The state a word is placed in -/

@[simp] theorem placeInID_word (v : Word) : (s.placeInID v).wordInID = v := rfl
@[simp] theorem placeInID_x (v : Word) : (s.placeInID v).x = s.x := rfl
@[simp] theorem placeInID_mem (v : Word) : (s.placeInID v).mem = s.mem := rfl
@[simp] theorem placeInID_halted (v : Word) : (s.placeInID v).halted = false := rfl

/-- A placed word is run by the next edge: `rst` is low and the core is not halted. -/
theorem placeInID_edgeKind (v : Word) : (s.placeInID v).edgeKind = .cycle := by
  cases h : s.inputs <;> simp [State.placeInID, State.edgeKind, State.portIn, h]

/-- Feeding words touches the ports only. -/
@[simp] theorem feed_inputs_length (ws : List Word) : (s.feed ws).inputs.length = ws.length := by
  simp [State.feed]

end Sys2Proof.Machine
end

