-- ==== Sys2Proof/Laws/Stages.lean ====
section
/-! SUPPORT. Once for each stage, everything it can do (40_pipeline.md R108 to R118), and what a cycle
does with the three results (R120, R205). -/

namespace Sys2Proof.Machine

variable {s : State} {f : FaultRecord}

/-! ### EX -/

/-- EX passes a no-op on (R108). -/
theorem exStage_noOp (h : s.idex.read.ctrl = .noOp) :
    exStage s = .ok { s.exmem.write with ctrl := .noOp } := by
  simp [exStage, h]

/-- EX on a record (R109 to R111): the ALU's fault, or its result passed on. -/
theorem exStage_active {c : ControlSignals} (h : s.idex.read.ctrl = .active c) :
    exStage s = match alu c s.idex.read with
      | .error f => .error f
      | .ok r => .ok
        { ctrl := .active c.passEX, aluResult := r, writeRegNum := destSelect c s.idex.read,
          sWValue := s.idex.read.readReg2Value, incrPC := s.idex.read.incrPC,
          branchTarget := none, zero := none } := by
  cases ha : alu c s.idex.read <;> simp only [exStage, h, ha, branchTargetValue, zeroFlag]

/-- The ALU answers a sum, a difference, an address, or the EX consistency fault (R110). -/
theorem alu_error {c : ControlSignals} {d : IDEX} (h : alu c d = .error f) :
    f = .inconsistentControl .ex := by
  simp only [alu] at h
  split at h
  · split_ifs at h
    all_goals simp_all
  · split at h
    all_goals simp_all

/-- The only fault EX raises (R110). -/
theorem exStage_error (h : exStage s = .error f) : f = .inconsistentControl .ex := by
  cases hc : s.idex.read.ctrl with
  | noOp => rw [exStage_noOp hc] at h; cases h
  | active c =>
    rw [exStage_active hc] at h
    cases ha : alu c s.idex.read with
    | error g => simp only [ha] at h; cases h; exact alu_error ha
    | ok r => simp [ha] at h

/-- EX completes when its operands are there (R110). -/
theorem exStage_ok_of_ready (h : s.exReady) : ∃ r, exStage s = .ok r := by
  cases hc : s.idex.read.ctrl with
  | noOp => exact ⟨_, exStage_noOp hc⟩
  | active c =>
    rw [exStage_active hc]
    rcases h c hc with ⟨ho, hf | hf⟩ | ⟨ho, off, hf⟩
    · exact ⟨_, by simp [alu, ho, hf]; rfl⟩
    · refine ⟨_, by simp [alu, ho, hf, functAdd, functSub]; rfl⟩
    · exact ⟨_, by simp [alu, ho, hf]; rfl⟩

/-! ### MEM -/

/-- MEM passes a no-op on and leaves the memory (R112). -/
theorem memStage_noOp (h : s.exmem.read.ctrl = .noOp) :
    memStage s = .ok ({ s.memwb.write with ctrl := .noOp }, s.mem) := by
  simp [memStage, h]

/-- MEM on a record (R113 to R115): the address fault, or the loaded value and the memory after the
edge. -/
theorem memStage_active {m : ExMemSignals} (h : s.exmem.read.ctrl = .active m) :
    memStage s =
      if (m.memRead = true ∨ m.memWrite = true) ∧ ¬ s.exmem.read.aluResult.toNat < s.params.memSize
      then .error (.memoryAddressError s.exmem.read.aluResult)
      else .ok
        ({ ctrl := .active m.passMEM
           lWDataValue := if m.memRead
             then some ((s.readByte s.exmem.read.aluResult.toNat).setWidth 32) else none
           aluResult := s.exmem.read.aluResult
           writeRegNum := s.exmem.read.writeRegNum },
         if m.memWrite
         then Memory.write s.params s.exmem.read.aluResult.toNat
           (s.exmem.read.sWValue.extractLsb' 0 8) s.mem
         else s.mem) := by
  simp only [memStage, h, loadValue, storeResult, memRead_eq, memWrite_eq]
  cases m.memRead <;> cases m.memWrite <;>
    by_cases ha : s.exmem.read.aluResult.toNat < s.params.memSize <;> simp [ha]

/-- The only fault MEM raises (R203). -/
theorem memStage_error (h : memStage s = .error f) :
    f = .memoryAddressError s.exmem.read.aluResult := by
  cases hc : s.exmem.read.ctrl with
  | noOp => rw [memStage_noOp hc] at h; cases h
  | active m =>
    rw [memStage_active hc] at h
    split_ifs at h
    all_goals cases h; rfl

/-- MEM completes when the address is valid or there is no access (R203). -/
theorem memStage_ok_of_ready (h : s.memReady) : ∃ r, memStage s = .ok r := by
  cases hc : s.exmem.read.ctrl with
  | noOp => exact ⟨_, memStage_noOp hc⟩
  | active m =>
    rw [memStage_active hc, if_neg (fun hx => hx.2 (h m hc hx.1))]
    exact ⟨_, rfl⟩

/-! ### WB -/

/-- WB does nothing with a no-op (R116). -/
theorem wbStage_noOp (h : s.memwb.read.ctrl = .noOp) : wbStage s = .ok s.x := by
  simp [wbStage, h]

/-- WB does nothing without `regWrite` (R117). -/
theorem wbStage_idle {b : MemWbSignals} (h : s.memwb.read.ctrl = .active b)
    (hb : b.regWrite = false) : wbStage s = .ok s.x := by
  simp [wbStage, h, hb]

/-- WB with `regWrite` (R117, R118): one register, or the consistency fault. -/
theorem wbStage_write {b : MemWbSignals} (h : s.memwb.read.ctrl = .active b)
    (hb : b.regWrite = true) :
    wbStage s = match s.memwb.read.writeRegNum, wbValue b s.memwb.read with
      | some n, .ok v => .ok (s.x.write n v)
      | _, _ => .error (.inconsistentControl .wb) := by
  simp only [wbStage, h, hb, if_true]
  cases s.memwb.read.writeRegNum with
  | none => rfl
  | some n =>
    simp only [wbValue]
    cases b.memToReg with
    | none => rfl
    | some t => cases t <;> cases s.memwb.read.lWDataValue <;> rfl

/-- The only fault WB raises (R118). -/
theorem wbStage_error (h : wbStage s = .error f) : f = .inconsistentControl .wb := by
  cases hc : s.memwb.read.ctrl with
  | noOp => rw [wbStage_noOp hc] at h; cases h
  | active b =>
    cases hb : b.regWrite with
    | false => rw [wbStage_idle hc hb] at h; cases h
    | true =>
      rw [wbStage_write hc hb] at h
      split at h
      · cases h
      · cases h; rfl

/-- WB completes when its value and its register number are there (R118). -/
theorem wbStage_ok_of_ready (h : s.wbReady) : ∃ r, wbStage s = .ok r := by
  cases hc : s.memwb.read.ctrl with
  | noOp => exact ⟨_, wbStage_noOp hc⟩
  | active b =>
    cases hb : b.regWrite with
    | false => exact ⟨_, wbStage_idle hc hb⟩
    | true =>
      obtain ⟨⟨n, hn⟩, ht | ⟨ht, v, hv⟩⟩ := h b hc hb
      · exact ⟨_, by rw [wbStage_write hc hb, hn]; simp only [wbValue, ht]; rfl⟩
      · exact ⟨_, by rw [wbStage_write hc hb, hn]; simp only [wbValue, ht, hv]; rfl⟩

/-- WB changes no register but the one it names, and that one only with `regWrite` (R22). -/
theorem wbStage_changes {x : RegFile} {r : RegIdx} (h : wbStage s = .ok x)
    (hr : x.read r ≠ s.x.read r) :
    ∃ b, s.memwb.read.ctrl = .active b ∧ b.regWrite = true ∧ s.memwb.read.writeRegNum = some r := by
  cases hc : s.memwb.read.ctrl with
  | noOp => rw [wbStage_noOp hc] at h; cases h; exact absurd rfl hr
  | active b =>
    cases hb : b.regWrite with
    | false => rw [wbStage_idle hc hb] at h; cases h; exact absurd rfl hr
    | true =>
      refine ⟨b, rfl, hb, ?_⟩
      rw [wbStage_write hc hb] at h
      split at h
      · next n v hn _ =>
        cases h
        by_cases he : r = n
        · rw [he, hn]
        · exact absurd (RegFile.read_write_other _ _ he) hr
      · cases h

/-! ### The three together -/

/-- No stage raised anything exactly when all three answer a result (R100). -/
theorem olderStages_ok_iff {w : OlderWork} :
    olderStages s = .ok w ↔
      exStage s = .ok w.exmem ∧ memStage s = .ok (w.memwb, w.mem) ∧ wbStage s = .ok w.x := by
  simp only [olderStages]
  cases hE : exStage s with
  | error f => simp
  | ok e =>
    cases hM : memStage s with
    | error f => simp
    | ok m =>
      obtain ⟨mw, mm⟩ := m
      cases hW : wbStage s with
      | error f => simp
      | ok x =>
        obtain ⟨a, b, c, d⟩ := w
        simp only [Except.ok.injEq, OlderWork.mk.injEq, Prod.mk.injEq]
        tauto

/-- The first fault in the order EX, MEM, WB (R206). -/
theorem olderStages_error_iff :
    olderStages s = .error f ↔
      exStage s = .error f ∨
      (∃ e, exStage s = .ok e) ∧ (memStage s = .error f ∨
        (∃ m, memStage s = .ok m) ∧ wbStage s = .error f) := by
  simp only [olderStages]
  cases hE : exStage s with
  | error g => simp
  | ok e =>
    cases hM : memStage s with
    | error g => simp
    | ok m =>
      obtain ⟨mw, mm⟩ := m
      cases hW : wbStage s with
      | error g => simp
      | ok x => simp

/-- When all three are ready, the cycle commits. -/
theorem olderStages_ok_of_canCommit (h : s.CanCommit) : ∃ w, olderStages s = .ok w := by
  obtain ⟨e, he⟩ := exStage_ok_of_ready h.ex
  obtain ⟨⟨mw, mm⟩, hm⟩ := memStage_ok_of_ready h.mem
  obtain ⟨x, hx⟩ := wbStage_ok_of_ready h.wb
  exact ⟨⟨e, mw, mm, x⟩, olderStages_ok_iff.2 ⟨he, hm, hx⟩⟩

/-- A cycle commits, or takes the first fault (R120, R205). -/
theorem runCycle_cases (d : IDEX) (s : State) :
    (∃ w, olderStages s = .ok w ∧ runCycle d s = endCycle (stagesRun d w s)) ∨
    (∃ f, olderStages s = .error f ∧ runCycle d s = raiseFault f s) := by
  cases h : olderStages s with
  | error f => exact .inr ⟨f, rfl, by simp [runCycle, h]⟩
  | ok w => exact .inl ⟨w, rfl, by simp [runCycle, h]⟩

end Sys2Proof.Machine
end

