-- ==== Sys2Proof/Laws/Step.lean ====
section
/-! SUPPORT. Every meaning is one cycle with its own ID/EX contents, and once everything a step can
do. -/

namespace Sys2Proof.Machine

/-- What ID writes for each instruction (R106, R107). -/
def idOutput (i : Instr) (s : State) : IDEX :=
  match i with
  | .add rd rs rt _ => idStage (outR functAdd) rs rt rd s
  | .sub rd rs rt _ => idStage (outR functSub) rs rt rd s
  | .lb rt rs imm => idStage (outI ctrlLoad imm) rs rt (immBits_15_11 imm) s
  | .lw rt rs imm => idStage (outI ctrlLoad imm) rs rt (immBits_15_11 imm) s
  | .sb rt rs imm => idStage (outI ctrlStore imm) rs rt (immBits_15_11 imm) s
  | .sw rt rs imm => idStage (outI ctrlStore imm) rs rt (immBits_15_11 imm) s
  | .beq rs rt imm => idStage (outI ctrlBranch imm) rs rt (immBits_15_11 imm) s
  | .bne rs rt imm => idStage (outI ctrlBranch imm) rs rt (immBits_15_11 imm) s
  | .nop => idNoOp s

/-- Every meaning is the cycle that has its instruction in ID (R120). -/
theorem exec_eq_runCycle (i : Instr) (s : State) : exec i s = .next (runCycle (idOutput i s) s) := by
  cases i <;> rfl

/-- What a meaning can do: commit the cycle, or take the first fault of the older words. -/
theorem exec_cases {i : Instr} {s t : State} (h : exec i s = .next t) :
    (∃ w, olderStages s = .ok w ∧ t = endCycle (stagesRun (idOutput i s) w s)) ∨
    (∃ f, olderStages s = .error f ∧ t = raiseFault f s) := by
  rw [exec_eq_runCycle] at h
  cases h
  exact runCycle_cases _ _

/-- The edge is a cycle when `rst` is low and the core runs (R100). -/
theorem edgeKind_cycle {s : State} (hr : s.portIn.rst = false) (hh : s.halted = false) :
    s.edgeKind = .cycle := by
  simp [State.edgeKind, hr, hh]

/-- What a step can do: reset, idle, take the fault of an undecodable word, or run the word in ID. -/
theorem step_cases {s t : State} (h : step s = .next t) :
    (s.portIn.rst = true ∧ t = resetEdge s) ∨
    (s.portIn.rst = false ∧ s.halted = true ∧ t = idleEdge s) ∨
    (s.portIn.rst = false ∧ s.halted = false ∧
      ((∃ r, decode s.wordInID = .error r ∧ t = raiseFault (decodeFault r) s) ∨
       (∃ i, decode s.wordInID = .ok i ∧ exec i s = .next t))) := by
  cases hr : s.portIn.rst with
  | true => left; simp [step, State.edgeKind, hr] at h; exact ⟨rfl, h.symm⟩
  | false =>
    right
    cases hh : s.halted with
    | true => left; simp [step, State.edgeKind, hr, hh] at h; exact ⟨rfl, rfl, h.symm⟩
    | false =>
      right
      refine ⟨rfl, rfl, ?_⟩
      simp only [step, edgeKind_cycle hr hh] at h
      cases hd : decode s.wordInID with
      | error r => simp only [hd] at h; cases h; exact .inl ⟨r, rfl, rfl⟩
      | ok i => simp only [hd] at h; exact .inr ⟨i, rfl, h⟩

/-- Without a reset edge a halted core stays halted (R207). -/
theorem running_before {s t : State} (hr : s.portIn.rst = false) (h : step s = .next t)
    (ht : t.halted = false) : s.halted = false := by
  rcases step_cases h with ⟨h1, _⟩ | ⟨_, hh, rfl⟩ | ⟨_, hh, _⟩
  · rw [hr] at h1; cases h1
  · rw [idleEdge_eq, edgePassed_halted, hh] at ht; cases ht
  · exact hh

/-- A meaning that leaves the core running has committed its cycle. -/
theorem exec_committed {i : Instr} {s t : State} (h : exec i s = .next t) (ht : t.halted = false) :
    ∃ w, olderStages s = .ok w ∧ t = endCycle (stagesRun (idOutput i s) w s) := by
  rcases exec_cases h with hw | ⟨f, _, rfl⟩
  · exact hw
  · simp at ht

/-- An edge without reset that leaves the core running has committed a cycle (R205). -/
theorem step_committed {s t : State} (hr : s.portIn.rst = false) (h : step s = .next t)
    (ht : t.halted = false) :
    ∃ i w, decode s.wordInID = .ok i ∧ olderStages s = .ok w ∧
      t = endCycle (stagesRun (idOutput i s) w s) := by
  have hs := running_before hr h ht
  rcases step_cases h with ⟨h1, _⟩ | ⟨_, hh, _⟩ | ⟨_, _, ⟨r, _, rfl⟩ | ⟨i, hd, he⟩⟩
  · rw [hr] at h1; cases h1
  · rw [hs] at hh; cases hh
  · simp at ht
  · obtain ⟨w, hw, he⟩ := exec_committed he ht
    exact ⟨i, w, hd, hw, he⟩

/-- Every step consumes the port values of its edge (R37). -/
theorem step_inputs {s t : State} (h : step s = .next t) : t.inputs = s.inputs.tail := by
  rcases step_cases h with ⟨_, rfl⟩ | ⟨_, _, rfl⟩ | ⟨_, _, ⟨r, _, rfl⟩ | ⟨i, _, he⟩⟩
  · simp
  · simp
  · simp
  · rcases exec_cases he with ⟨w, _, rfl⟩ | ⟨f, _, rfl⟩ <;> simp

/-- `rst` low at the next edges is `rst` low at this one and at those after it. -/
theorem rstLow_succ {s : State} {n : Nat} (h : s.rstLow (n + 1)) :
    s.portIn.rst = false ∧ ∀ t : State, t.inputs = s.inputs.tail → t.rstLow n := by
  cases hi : s.inputs with
  | nil => exact ⟨by simp [State.portIn, hi], fun t ht => by simp [State.rstLow, ht]⟩
  | cons p ps =>
    refine ⟨?_, fun t ht q hq => ?_⟩
    · simpa [State.portIn, hi] using h p (by simp [hi])
    · exact h q (by simp only [ht, List.tail_cons] at hq; simp [hi, hq])

/-- Induction over a run of edges: what holds at the start and what every step keeps holds at the end. -/
theorem runEdges_keeps {P : State → Prop} (hstep : ∀ s t, P s → step s = .next t → P t) :
    ∀ (n : Nat) (s t : State), P s → runEdges n s = .next t → P t := by
  intro n
  induction n with
  | zero => intro s t hs h; cases h; exact hs
  | succ n ih =>
    intro s t hs h
    simp only [runEdges] at h
    cases hst : step s with
    | next u => rw [hst] at h; exact ih u t (hstep s u hs hst) h
    | fault r => cases r
    | refused r => rw [hst] at h; cases h

end Sys2Proof.Machine
end

