-- ==== Sys2Proof/Tests/Slice0.lean ====
section
/-! SUPPORT. Tests: the WellFormed smoke, words written out from the encodings, one step of each
instruction, and for every statement with hypotheses a state that meets them. Expected values are from
95_test_vectors.md (V<n>, S<n>) or computed by hand from the rule named. -/

namespace Sys2Proof.Tests

open Sys2Proof.Machine

/-! ### States -/

/-- START_PC and MEM_SIZE of 95_test_vectors.md; of its MEM_INIT only the first 32 cells, zero above. -/
def fixture : Params :=
  { startPC := 0x70000, memTop := 0x3FF, memInit := (List.range 32).map (BitVec.ofNat 8) }

/-- The reset state of the fixture. -/
def base : State := State.resetWith fixture [] []

/-- A running core with an `add $9` in EX, a `lb $7, 8($0)` in MEM and a `sub $12` in WB. -/
def busy : State :=
  { base with
    ifid := .both { instruction := 0x014B4820, incrPC := some 0x70014 }
    idex := .both
      { ctrl := .active ctrlR, sEOffset := none, function := some functAdd, writeReg_15_11 := 9,
        writeReg_20_16 := 11, readReg1Value := 0x10A, readReg2Value := 0x10B, incrPC := 0x70010 }
    exmem := .both
      { ctrl := .active ctrlLoad.passEX, aluResult := 0x8, writeRegNum := some 7, sWValue := 0x107,
        incrPC := 0x7000C, branchTarget := none, zero := none }
    memwb := .both
      { ctrl := .active ctrlR.passEX.passMEM, lWDataValue := none, aluResult := 0xFFFFFFFF,
        writeRegNum := some 12 }
    cycle := 6 }

/-- A core with a store of `0x102` to `address` in MEM (V46 with another address). -/
def storing (address : Word) : State :=
  { base with
    exmem := .both
      { ctrl := .active ctrlStore.passEX, aluResult := address, writeRegNum := none,
        sWValue := 0x102, incrPC := 0x70004, branchTarget := none, zero := none } }

/-- A core with these contents in ID/EX. -/
def executing (d : IDEX) : State := { base with idex := .both d }

/-- A core whose MEM/WB would write a register with no destination named (V74). -/
def corruptWB : State :=
  { base with
    memwb := .both
      { ctrl := .active { memToReg := none, regWrite := true }, lWDataValue := none, aluResult := 0,
        writeRegNum := some 1 } }

/-- The state an outcome gives. -/
def after (o : Host.Outcome State Fault Refusal) : State :=
  match o with
  | .next t => t
  | _ => base

/-! ### WellFormed: one ill-formed term for each end of the range (R80), in every form that has one -/

theorem test_wf_displacement_too_large : ¬ WellFormed (.lb 4 8 32768) := by decide
theorem test_wf_displacement_too_small : ¬ WellFormed (.sw 4 8 (-32769)) := by decide
theorem test_wf_lw_refused : ¬ WellFormed (.lw 4 8 32768) := by decide
theorem test_wf_sb_refused : ¬ WellFormed (.sb 4 8 65535) := by decide
theorem test_wf_beq_refused : ¬ WellFormed (.beq 0 0 32768) := by decide
theorem test_wf_bne_refused : ¬ WellFormed (.bne 1 2 (-32769)) := by decide
theorem test_wf_range_ends : WellFormed (.lb 4 8 (-32768)) ∧ WellFormed (.lb 4 8 32767) := by decide

/-! ### Decoding: words written out bit by bit from the `encoding` strings of opcode_table.json -/

theorem test_decode_add :
    decode 0b000000_01010_01011_01001_00000_100000 = .ok (.add 9 10 11 0) := by decide
theorem test_decode_add_shamt :
    decode 0b000000_01010_01011_01001_00001_100000 = .ok (.add 9 10 11 1) := by decide
theorem test_decode_sub :
    decode 0b000000_01001_01000_01100_00000_100010 = .ok (.sub 12 9 8 0) := by decide
theorem test_decode_lb :
    decode 0b100000_01000_00100_1111111111111100 = .ok (.lb 4 8 (-4)) := by decide
theorem test_decode_lw :
    decode 0b100011_00000_00110_0000000000000000 = .ok (.lw 6 0 0) := by decide
theorem test_decode_sb :
    decode 0b101000_01000_00010_0000000000000000 = .ok (.sb 2 8 0) := by decide
theorem test_decode_sw :
    decode 0b101011_00000_00101_0000000000010000 = .ok (.sw 5 0 16) := by decide
theorem test_decode_beq :
    decode 0b000100_00000_00000_0000000000000100 = .ok (.beq 0 0 4) := by decide
theorem test_decode_bne :
    decode 0b000101_00001_00010_1111111111111111 = .ok (.bne 1 2 (-1)) := by decide
theorem test_decode_nop : decode 0 = .ok .nop := by decide
theorem test_decode_zero_opcode_is_not_nop : decode 1 = .error (.unknownFunction 1) := by decide
theorem test_decode_jump_rejected : decode 0x08000000 = .error (.unknownOpcode 2) := by decide
theorem test_decodeTableWord : decodeTableWord 32 0xA1020000 = some (.sb 2 8 0) := by decide
theorem test_encode_bne : encode (.bne 1 2 (-1)) = 0x1422FFFF := by decide

/-- R81: 57 opcodes raise `DecodeError`. -/
theorem test_unknown_opcodes_count :
    ((List.range 64).filter fun n =>
      n != 0 && (IForm.ofOpcode (BitVec.ofNat 6 n)).isNone).length = 57 := by decide

/-- R86, R87: the example of the assembler syntax. -/
theorem test_asm_add : asmText (.add 9 10 11 0) = "add $t1, $t2, $t3" := by decide
theorem test_asm_lb : asmText (.lb 4 8 (-4)) = "lb $a0, -4($t0)" := by decide
theorem test_regOfName : regOfName "$ra" = some 31 ∧ regOfName "$7" = some 7 := by decide
theorem test_immOperand : immOperand 0xFFFC = some (-4) ∧ immOperand 0x10000 = none := by decide

/-! ### One step of each instruction -/

/-- S3: `add $t1,$t2,$t3` in ID. -/
theorem test_add_in_ID :
    (after (exec (.add 9 10 11 0) base)).idex.read.readReg2Value = 0x10B ∧
    (after (exec (.add 9 10 11 0) base)).idex.read.writeReg_15_11 = 9 := by decide
/-- V22: signed overflow wraps. -/
theorem test_add_wraps :
    alu ctrlR { IDEX.reset with
      function := some 0x20, readReg1Value := 0x7FFFFFFF, readReg2Value := 1 } = .ok 0x80000000 := by
  decide
theorem test_sub_in_ID : (after (exec (.sub 12 9 8 0) base)).idex.read.function = some 0x22 := by
  decide
/-- V28: the operand order is r1 - r2. -/
theorem test_sub_order :
    alu ctrlR { IDEX.reset with
      function := some 0x22, readReg1Value := 0x108, readReg2Value := 0x109 } = .ok 0xFFFFFFFF := by
  decide
/-- V15: the negative displacement. -/
theorem test_lb_in_ID :
    (after (exec (.lb 4 8 (-4)) base)).idex.read.sEOffset = some 0xFFFFFFFC := by decide
/-- R113: the `lb` in MEM loads cell 8 while another word is in ID. -/
theorem test_lb_in_MEM : (after (exec .nop busy)).memwb.read.lWDataValue = some 8 := by decide
theorem test_lw_in_ID : (after (exec (.lw 6 0 0) base)).idex.read.ctrl = .active ctrlLoad := by decide
/-- S5: `sb $2, 0($8)` in ID, as a step from the placed word. -/
theorem test_sb_in_ID :
    (after (step (base.withFetchWord 32 0xA1020000))).idex.read =
      { ctrl := .active ctrlStore, sEOffset := some 0, function := none, writeReg_15_11 := 0,
        writeReg_20_16 := 2, readReg1Value := 0x108, readReg2Value := 0x102,
        incrPC := 0x70004 } := by decide
/-- V46: the low byte is stored, and the next cell keeps MEM_INIT. -/
theorem test_sb_in_MEM :
    (after (exec .nop (storing 0x10))).readByte 0x10 = 0x02 ∧
    (after (exec .nop (storing 0x10))).readByte 0x11 = 0x11 := by decide
theorem test_sw_in_ID : (after (exec (.sw 5 0 16) base)).idex.read.sEOffset = some 16 := by decide
/-- V14: `bne $1,$2,-1` in ID, the raw bits of the immediate among its fields. -/
theorem test_bne_in_ID :
    (after (exec (.bne 1 2 (-1)) base)).idex.read.writeReg_15_11 = 31 ∧
    (after (exec (.bne 1 2 (-1)) base)).idex.read.readReg1Value = 0x101 := by decide
/-- V50: fetch goes on in sequence. -/
theorem test_beq_in_ID :
    (after (exec (.beq 0 0 4) busy)).ifid.read.incrPC = some 0x70018 := by decide
/-- R106: the other ID/EX fields hold. -/
theorem test_nop_in_ID :
    (after (exec .nop busy)).idex.read = { busy.idex.read with ctrl := .noOp } := by decide
/-- R117, R122: WB writes x[12] in the cycle in which ID still reads the old x[12]. -/
theorem test_WB_after_ID :
    (after (exec (.add 1 12 12 0) busy)).x.read 12 = 0xFFFFFFFF ∧
    (after (exec (.add 1 12 12 0) busy)).idex.read.readReg1Value = 0x10C := by decide
/-- V72: ID's fault comes before MEM's. -/
theorem test_fault_priority :
    (after (step ((storing 0x400).placeInID 0x08000000))).fault = some (.decodeError 2) := by decide
/-- V43: the address is one past the end; nothing of the cycle commits. -/
theorem test_address_fault :
    (after (exec .nop (storing 0x400))).fault = some (.memoryAddressError 0x400) ∧
    (after (exec .nop (storing 0x400))).cycle = 1 := by decide
/-- V74, V75. -/
theorem test_inconsistent :
    (after (exec .nop corruptWB)).fault = some (.inconsistentControl .wb) ∧
    (after (exec .nop (executing { IDEX.reset with
      ctrl := .active ctrlR, function := none }))).fault = some (.inconsistentControl .ex) := by
  decide
/-- R200: the code numbers. -/
theorem test_fault_codes :
    (FaultRecord.decodeError 2).code = 1 ∧ (FaultRecord.unknownFunction 0x21).code = 2 ∧
    (FaultRecord.memoryAddressError 0).code = 3 ∧ (FaultRecord.inconsistentControl .ex).code = 4 := by
  decide
/-- V61: incrPC wraps. -/
theorem test_incrPC_wraps :
    (ifStage (State.resetWith { fixture with startPC := 0xFFFFFFFC } [] [])).incrPC = some 0 := by
  decide
/-- R119: one record for one committed cycle, numbered 1. -/
theorem test_record :
    (after (step base)).trace.map (fun r => r.cycle) = [1] ∧ (after (step base)).cycle = 2 := by decide
/-- R243: a reset edge in mid-run. -/
theorem test_reset_edge :
    after (step { busy with halted := true, inputs := [{ rst := true, instrIn := 5 }] }) = base := by
  decide

/-! ### Witnesses: states that meet the hypotheses of the statements -/

theorem base_drained : base.Drained := ⟨rfl, rfl, rfl⟩

theorem witness_alone : base.Alone := ⟨rfl, base_drained, by simp [State.zeroWords, base, State.resetWith]⟩

/-- `ArithmeticInIDCompletes`, `LoadsInIDComplete`, `StoresInIDComplete`, `BranchesInIDComplete`,
`NopInIDCompletes`: words in flight in every stage. -/
theorem witness_canCommit : busy.halted = false ∧ busy.CanCommit :=
  ⟨rfl,
    { ex := fun c h => by cases h; exact .inl ⟨rfl, .inl rfl⟩
      mem := fun m _ _ => by show _ < _; decide
      wb := fun b h _ => by cases h; exact ⟨⟨12, rfl⟩, .inl rfl⟩ }⟩

/-- `DecodeOfEncodeIsIdentity`. -/
theorem witness_wellFormed : WellFormed (.beq 1 2 (-32768)) := by decide
/-- `EncodeOfDecodeIsIdentity`. -/
theorem witness_decodes : decode 0x8104FFFC = .ok (.lb 4 8 (-4)) := by decide
/-- `SignExtensionKeepsTheDisplacement`, at both ends of the range. -/
theorem witness_sign_extension :
    sEOffsetOf (-32768) = 0xFFFF8000 ∧ sEOffsetOf 32767 = 0x00007FFF := by decide
/-- `HostInputKeepsItsValueOrIsRefused`, where its two clauses meet. -/
theorem witness_host_word : hostWord 0xFFFFFFFF = some 0xFFFFFFFF ∧ hostWord 0x100000000 = none := by
  decide
/-- `RstEdgeLoadsTheResetState`. -/
theorem witness_rst : ({ busy with inputs := [{ rst := true, instrIn := 0 }] } : State).portIn.rst = true :=
  rfl
/-- `StepRunsTheInstructionInID`, `CycleCommitsWhollyOrNotAtAll`, `FirstFaultInStageOrderIsReported`,
`IDWritesTheWordsFields`. -/
theorem witness_cycle :
    busy.portIn.rst = false ∧ busy.halted = false ∧ busy.ifid.read.instruction ≠ 0 ∧
    decode busy.ifid.read.instruction = .ok (.add 9 10 11 0) ∧
    step busy = .next (after (step busy)) ∧ (after (step busy)).halted = false :=
  ⟨rfl, rfl, by decide, by decide, rfl, by decide⟩
/-- The faulting side of `CycleCommitsWhollyOrNotAtAll` and of `CommittedCycleEmitsItsRecord`. -/
theorem witness_cycle_faults :
    exec .nop (storing 0x400) = .next (after (exec .nop (storing 0x400))) ∧
    step (storing 0x400) = .next (after (step (storing 0x400))) ∧
    (after (step (storing 0x400))).halted = true := ⟨rfl, rfl, by decide⟩
/-- Every clause of `FirstFaultInStageOrderIsReported`. -/
theorem witness_each_fault :
    decode 0x08000000 = .error (.unknownOpcode 2) ∧
    exStage (executing { IDEX.reset with ctrl := .active ctrlR, function := none }) =
      .error (.inconsistentControl .ex) ∧
    memStage (storing 0x400) = .error (.memoryAddressError 0x400) ∧
    wbStage corruptWB = .error (.inconsistentControl .wb) := by decide
/-- `PlacedWordIsRunByTheNextStep`. -/
theorem witness_placed : decodeTableWord 32 0x01286022 = some (.sub 12 9 8 0) := by decide
/-- `HaltedCoreWaitsForReset`: both its clauses. -/
theorem witness_halted :
    ({ busy with halted := true } : State).portIn.rst = false ∧
    (after (step { busy with halted := true, inputs := [{ rst := true, instrIn := 0 }] })).halted =
      false := ⟨rfl, by decide⟩
/-- `ParametersAndInputStreamAreNotWritten`, `OnlyWBWritesTheRegisterFile`: a step that writes x[12]. -/
theorem witness_step_writes_register :
    step busy = .next (after (step busy)) ∧ (after (step busy)).x.read 12 ≠ busy.x.read 12 :=
  ⟨rfl, by decide⟩
/-- `OnlyMEMWritesMainMemory`: a step that writes cell 0x10. -/
theorem witness_step_writes_memory :
    (storing 0x10).portIn.rst = false ∧
    step (storing 0x10) = .next (after (step (storing 0x10))) ∧
    (after (step (storing 0x10))).readByte 0x10 ≠ (storing 0x10).readByte 0x10 :=
  ⟨rfl, rfl, by decide⟩
/-- `UnknownOpcodeHaltsInID`. -/
theorem witness_unknown_opcode :
    (base.placeInID 0xFC000000).portIn.rst = false ∧ (base.placeInID 0xFC000000).halted = false ∧
    (base.placeInID 0xFC000000).ifid.read.instruction.extractLsb' 26 6 ∉
      [0x00#6, 0x04#6, 0x05#6, 0x20#6, 0x23#6, 0x28#6, 0x2B#6] := by decide
/-- `UnknownFunctionHaltsInID`. -/
theorem witness_unknown_function :
    (base.placeInID 0x21).ifid.read.instruction ≠ 0 ∧
    (base.placeInID 0x21).ifid.read.instruction.extractLsb' 26 6 = 0#6 ∧
    (base.placeInID 0x21).ifid.read.instruction.extractLsb' 0 6 ∉ [0x20#6, 0x22#6] := by decide
/-- `InvalidAddressHaltsInMEM`: the first invalid address, and the last valid one does not halt. -/
theorem witness_invalid_address :
    (storing 0x400).exReady ∧ (storing 0x400).exmem.read.ctrl = .active ctrlStore.passEX ∧
    ctrlStore.passEX.memWrite = true ∧
    (storing 0x400).params.memSize ≤ (storing 0x400).exmem.read.aluResult.toNat ∧
    (storing 0x400).fault = none ∧ (after (exec .nop (storing 0x3FF))).halted = false :=
  ⟨fun _ h => (by cases h), rfl, rfl, by decide, rfl, by decide⟩
/-- `InconsistentControlHaltsInWB`: each of its three cases. -/
theorem witness_inconsistent_WB :
    corruptWB.exReady ∧ corruptWB.memReady ∧
    wbValue { memToReg := none, regWrite := true } corruptWB.memwb.read =
      .error (.inconsistentControl .wb) ∧
    wbStage { corruptWB with memwb := .both { MEMWB.reset with
      ctrl := .active ctrlR.passEX.passMEM, writeRegNum := none } } =
      .error (.inconsistentControl .wb) ∧
    wbStage { corruptWB with memwb := .both { MEMWB.reset with
      ctrl := .active ctrlLoad.passEX.passMEM, lWDataValue := none } } =
      .error (.inconsistentControl .wb) :=
  ⟨fun _ h => (by cases h), fun _ h => (by cases h), by decide, by decide, by decide⟩
/-- `InconsistentControlHaltsInEX`: both its cases. -/
theorem witness_inconsistent_EX :
    exStage (executing { IDEX.reset with ctrl := .active ctrlR, function := some 0x21 }) =
      .error (.inconsistentControl .ex) ∧
    exStage (executing { IDEX.reset with ctrl := .active ctrlBranch, sEOffset := none }) =
      .error (.inconsistentControl .ex) := by decide
/-- `EveryStepKeepsTheInvariant`, `EveryStepKeepsTheIncrPCTags`, `DecodedWordsAreNeverInconsistent`: a state
with a word in every stage, in cycle 6. -/
theorem witness_invariants : busy.Inv ∧ busy.TagInv ∧ busy.halted = false :=
  ⟨{ memCanonical := rfl, ifidCommitted := rfl, idexCommitted := rfl, exmemCommitted := rfl,
     memwbCommitted := rfl, unfetched := fun h => (by cases h),
     idexDecoded := .inr (.inl ⟨rfl, .inl rfl, rfl⟩),
     exmemExecuted := .inr ⟨rfl, rfl, .inl ⟨.inr rfl, 7, rfl⟩⟩,
     memwbAccessed := .inr (.inl ⟨rfl, rfl, 12, rfl⟩), haltedIffFault := rfl },
   { ifidTag := fun p h => (by cases h; decide), ifidNone := fun h => (by cases h),
     idexTag := fun _ => (by decide), exmemTag := fun _ => (by decide) }, rfl⟩
/-- `FrameOfEveryInstructionInID`, `FetchIsAlwaysSequential`, `CommittedCycleEmitsItsRecord`,
`EXWritesItsOutputs`, `MEMWritesItsOutputs`, `WBWritesTheSelectedValue`: a cycle with a word in each
stage. -/
theorem witness_exec :
    exec (.beq 0 0 4) busy = .next (after (exec (.beq 0 0 4) busy)) ∧
    (after (exec (.beq 0 0 4) busy)).halted = false ∧ Memory.wf busy.params busy.mem = true ∧
    busy.idex.read.ctrl = .active ctrlR ∧ busy.exmem.read.ctrl = .active ctrlLoad.passEX ∧
    busy.memwb.read.ctrl = .active ctrlR.passEX.passMEM :=
  ⟨rfl, by decide, rfl, rfl, rfl, rfl⟩
/-- The other clauses of the three stage statements: no-ops, a store, a branch's address, a load's write. -/
theorem witness_stage_clauses :
    base.idex.read.ctrl = .noOp ∧ (storing 0x10).exmem.read.ctrl = .active ctrlStore.passEX ∧
    alu ctrlBranch { IDEX.reset with sEOffset := some 4 } = .ok 4 ∧
    wbStage { base with memwb := .both { MEMWB.reset with
      ctrl := .active ctrlLoad.passEX.passMEM, lWDataValue := some 9, writeRegNum := some 0 } } =
      .ok (base.x.write 0 9) := by decide
/-- `AddWritesTheSum`, `SubWritesTheDifference`, `LoadsWriteTheZeroExtendedByte`, `StoresWriteTheLowByte`,
`BranchesChangeNothing` and `EveryTableRowHasItsEffect`: `base` alone, and both sides of the address
bound (x[0] = 0, MEM_SIZE = 1024). -/
theorem witness_addresses :
    Memory.wf base.params base.mem = true ∧ base.portIn.rst = false ∧
    (base.x.read 0 + (BitVec.ofInt 16 1023).signExtend 32).toNat < base.params.memSize ∧
    base.params.memSize ≤ (base.x.read 0 + (BitVec.ofInt 16 1024).signExtend 32).toNat :=
  ⟨rfl, rfl, by decide, by decide⟩
/-- `EveryTableRowHasItsEffect`: a word in ID, alone, of the first and of the last row. -/
theorem witness_table_row :
    (base.placeInID 0x014B4820).Alone ∧ (0x014B4820#32 &&& 0xFC00003F#32 = 0x00000020#32) ∧
    base.ifid.read.instruction = 0 :=
  ⟨⟨rfl, ⟨rfl, rfl, rfl⟩, by simp [State.zeroWords, base, State.resetWith, State.placeInID]⟩,
    by decide, rfl⟩
/-- `ZeroWordsFromResetOnlyAdvanceIncrPC`. -/
theorem witness_zero_words : (State.resetWith fixture [{ rst := false, instrIn := 0 }] []).zeroWords 2 := by
  simp [State.zeroWords, State.resetWith]
/-- `CanonicalMemoriesReadingAlikeAreEqual`. -/
theorem witness_canonical :
    Memory.wf fixture [(1, 0xFF), (1023, 0x01)] = true ∧ Memory.wf fixture [(1, 0x01)] = false := by
  decide

/-- The states after `i` in ID, with words in flight in every other stage: `chain i k` stands `k + 1` edges
after `busy`. -/
def chain (i : Instr) : Nat → State
  | 0 => after (exec i busy)
  | k + 1 => after (step (chain i k))

theorem exec_after (i : Instr) (s : State) : exec i s = .next (after (exec i s)) := by
  rw [exec_eq_runCycle]; rfl

theorem step_after (s : State) : step s = .next (after (step s)) := by
  unfold step
  repeat' split
  all_goals first | rfl | exact exec_after _ _

/-- Every form of the table, memory at the first and the last cell (x[0] = 0, MEM_SIZE = 1024). -/
def everyForm : List Instr :=
  [.add 9 10 11 0, .sub 0 10 11 31, .lb 4 0 0, .lw 6 0 1023, .sb 2 0 0, .sw 5 0 1023,
    .beq 0 0 4, .bne 1 2 (-1), .nop]

/-- `EveryInstructionTakesEffectInFlight`: each clause. `NextThreeWordsReadTheOldRegisters`: two runs, by any
two forms of the list. -/
theorem witness_chain :
    busy.halted = false ∧ busy.rstLow 4 ∧ busy.rstLow 3 ∧ ∀ i ∈ everyForm,
      exec i busy = .next (chain i 0) ∧ step (chain i 0) = .next (chain i 1) ∧
      step (chain i 1) = .next (chain i 2) ∧ step (chain i 2) = .next (chain i 3) ∧
      (chain i 2).halted = false ∧ (chain i 3).halted = false := by
  have hrun : ∀ i ∈ everyForm, (chain i 2).halted = false ∧ (chain i 3).halted = false := by decide
  refine ⟨rfl, ?_, ?_, fun i hi =>
    ⟨exec_after _ _, step_after _, step_after _, step_after _, hrun i hi⟩⟩
  all_goals simp [State.rstLow, busy, base, State.resetWith]

/-- `sb $2, 16($0)` in ID with `lb $3, 16($0)` coming next (P2 with another address). -/
def pair0 : State := base.feed [0x80030010]
def pair1 : State := after (exec (.sb 2 0 16) pair0)
def pair2 : State := after (step pair1)
def pair3 : State := after (step pair2)
def pair4 : State := after (step pair3)
def pair5 : State := after (step pair4)

/-- `LoadBehindStoreSeesTheStoredByte`. -/
theorem witness_store_load :
    pair0.halted = false ∧ pair0.rstLow 5 ∧ Memory.wf pair0.params pair0.mem = true ∧
    exec (.sb 2 0 16) pair0 = .next pair1 ∧
    decode pair1.ifid.read.instruction = .ok (.lb 3 0 16) ∧
    effectiveAddress (pair1.x.read 0) 16 = effectiveAddress (pair0.x.read 0) 16 ∧
    step pair1 = .next pair2 ∧ step pair2 = .next pair3 ∧ step pair3 = .next pair4 ∧
    step pair4 = .next pair5 ∧ pair5.halted = false :=
  ⟨rfl, by simp [State.rstLow, pair0, State.feed], rfl, rfl, by decide, by decide, rfl, rfl, rfl, rfl,
    by decide⟩

/-- `TagsInfluenceNothingElse`: two states that differ in START_PC, in the tags and in the counter. -/
theorem witness_tags :
    SameButTags busy
      { busy with
        params := { busy.params with startPC := 0 }
        ifid := .both { busy.ifid.read with incrPC := some 0x14 }
        cycle := 9 } :=
  ⟨rfl, rfl, rfl, rfl, rfl, ⟨_, rfl⟩, ⟨_, rfl⟩, ⟨_, rfl⟩, ⟨_, rfl⟩, rfl, rfl, rfl, rfl⟩

end Sys2Proof.Tests
end

/-! SUPPORT. The statements of 10_state.md: the invariant and the incrPC tags every step keeps, what a tag
cannot influence, and the frame of a cycle. -/

namespace Sys2Proof.Machine

/-! ### What a step can do, with its cycle taken apart -/

/-- What a step leaves: the reset state, the state as it stood, the state with a fault taken, or a
committed cycle. -/
theorem step_next_cases {s t : State} (h : step s = .next t) :
    (s.portIn.rst = true ∧ t = resetEdge s) ∨ t = s.edgePassed ∨ (∃ f, t = raiseFault f s) ∨
    (∃ i w, decode s.wordInID = .ok i ∧ olderStages s = .ok w ∧
      t = endCycle (stagesRun (idOutput i s) w s)) := by
  rcases step_cases h with hr | ⟨_, _, ht⟩ | ⟨_, _, ⟨r, _, ht⟩ | ⟨i, hd, he⟩⟩
  · exact .inl hr
  · exact .inr (.inl ht)
  · exact .inr (.inr (.inl ⟨_, ht⟩))
  · rcases exec_cases he with ⟨w, hw, ht⟩ | ⟨f, _, ht⟩
    · exact .inr (.inr (.inr ⟨i, w, hd, hw, ht⟩))
    · exact .inr (.inr (.inl ⟨f, ht⟩))

theorem step_eq_resetEdge {s : State} (hr : s.portIn.rst = true) : step s = .next (resetEdge s) := by
  simp [step, State.edgeKind, hr]

theorem step_eq_idleEdge {s : State} (hr : s.portIn.rst = false) (hh : s.halted = true) :
    step s = .next (idleEdge s) := by
  simp [step, State.edgeKind, hr, hh]

theorem step_eq_raiseFault {s : State} {r : DecodeReject} (hr : s.portIn.rst = false)
    (hh : s.halted = false) (hd : decode s.wordInID = .error r) :
    step s = .next (raiseFault (decodeFault r) s) := by
  simp [step, edgeKind_cycle hr hh, hd]

theorem step_eq_runCycle {s : State} {i : Instr} (hr : s.portIn.rst = false)
    (hh : s.halted = false) (hd : decode s.wordInID = .ok i) :
    step s = .next (runCycle (idOutput i s) s) := by
  simp [step, edgeKind_cycle hr hh, hd, exec_eq_runCycle]

/-! ### What a completed stage leaves -/

/-- EX with a record, once it has answered (R111). -/
theorem exStage_ok_active {s : State} {c : ControlSignals} {e : EXMEM}
    (hc : s.idex.read.ctrl = .active c) (h : exStage s = .ok e) :
    ∃ r, alu c s.idex.read = .ok r ∧
      e = { ctrl := .active c.passEX, aluResult := r, writeRegNum := destSelect c s.idex.read,
            sWValue := s.idex.read.readReg2Value, incrPC := s.idex.read.incrPC,
            branchTarget := none, zero := none } := by
  rw [exStage_active hc] at h
  cases ha : alu c s.idex.read with
  | error f => simp [ha] at h
  | ok r => simp only [ha, Except.ok.injEq] at h; exact ⟨r, rfl, h.symm⟩

/-- MEM with a record, once it has answered: the address of an access was valid (R113 to R115). -/
theorem memStage_ok_active {s : State} {m : ExMemSignals} {r : MEMWB} {mem : List Host.Cell}
    (hc : s.exmem.read.ctrl = .active m) (h : memStage s = .ok (r, mem)) :
    (m.memRead = true ∨ m.memWrite = true → s.exmem.read.aluResult.toNat < s.params.memSize) ∧
    r = { ctrl := .active m.passMEM
          lWDataValue := if m.memRead
            then some ((s.readByte s.exmem.read.aluResult.toNat).setWidth 32) else none
          aluResult := s.exmem.read.aluResult
          writeRegNum := s.exmem.read.writeRegNum } ∧
    mem = if m.memWrite
      then Memory.write s.params s.exmem.read.aluResult.toNat
        (s.exmem.read.sWValue.extractLsb' 0 8) s.mem
      else s.mem := by
  rw [memStage_active hc] at h
  split at h
  · cases h
  · next hv =>
    cases h
    exact ⟨fun ha => not_not.1 fun hn => hv ⟨ha, hn⟩, rfl, rfl⟩

/-- MEM changes no cell but the one it addresses, and that one only with `memWrite` (R54). -/
theorem memStage_changes {s : State} {r : MEMWB} {mem : List Host.Cell} {a : Nat}
    (h : memStage s = .ok (r, mem)) (ha : Memory.read s.params mem a ≠ s.readByte a) :
    ∃ m, s.exmem.read.ctrl = .active m ∧ m.memWrite = true ∧ a = s.exmem.read.aluResult.toNat := by
  cases hc : s.exmem.read.ctrl with
  | noOp => rw [memStage_noOp hc] at h; cases h; exact absurd rfl ha
  | active m =>
    obtain ⟨_, _, rfl⟩ := memStage_ok_active hc h
    cases hw : m.memWrite with
    | false => simp [hw, State.readByte] at ha
    | true =>
      refine ⟨m, rfl, hw, not_not.1 fun hne => ha ?_⟩
      simp only [hw, if_true]
      exact Memory.read_write_other hne

/-! ### Frames (R22, R39, R40, R54) -/

/-- Settles O13, from what a step can do. -/
theorem parametersAndInputStreamAreNotWritten : Obligations.ParametersAndInputStreamAreNotWritten := by
  intro s t h
  refine ⟨?_, step_inputs h⟩
  rcases step_next_cases h with ⟨_, rfl⟩ | rfl | ⟨f, rfl⟩ | ⟨i, w, _, _, rfl⟩
  · rfl
  · rfl
  · rfl
  · rfl

/-- Settles O43, by the RegisterFile's read rules and the seed. -/
theorem registerZeroIsWritable : Obligations.RegisterZeroIsWritable :=
  ⟨RegFile.init_read 0, fun x v =>
    ⟨RegFile.read_write_same x 0 v, fun _ hr => RegFile.read_write_other x v hr⟩⟩

/-- A register that a cycle changes is the one WB names with `regWrite` (R22). -/
theorem exec_changes_register {i : Instr} {s t : State} {r : RegIdx} (h : exec i s = .next t)
    (hr : t.x.read r ≠ s.x.read r) :
    ∃ b, s.memwb.read.ctrl = .active b ∧ b.regWrite = true ∧ s.memwb.read.writeRegNum = some r := by
  rcases exec_cases h with ⟨w, hw, rfl⟩ | ⟨f, _, rfl⟩
  · obtain ⟨_, _, hx⟩ := olderStages_ok_iff.1 hw
    exact wbStage_changes hx hr
  · exact absurd rfl hr

/-- A byte that a cycle changes is the one the word in MEM stores to (R54). -/
theorem exec_changes_memory {i : Instr} {s t : State} {a : Nat} (h : exec i s = .next t)
    (ha : t.readByte a ≠ s.readByte a) :
    ∃ m, s.exmem.read.ctrl = .active m ∧ m.memWrite = true ∧ a = s.exmem.read.aluResult.toNat := by
  rcases exec_cases h with ⟨w, hw, rfl⟩ | ⟨f, _, rfl⟩
  · obtain ⟨_, hm, _⟩ := olderStages_ok_iff.1 hw
    exact memStage_changes hm ha
  · exact absurd rfl ha

/-- Settles O41: a step that changes a register is a cycle, whose WB names it. -/
theorem onlyWBWritesTheRegisterFile : Obligations.OnlyWBWritesTheRegisterFile := by
  intro s t r hrst h hr
  rcases step_cases h with ⟨hr1, _⟩ | ⟨_, _, rfl⟩ | ⟨_, _, ⟨q, _, rfl⟩ | ⟨i, _, he⟩⟩
  · simp [hrst] at hr1
  · exact absurd rfl hr
  · exact absurd rfl hr
  · exact exec_changes_register he hr

/-- Settles O28: what is not named by the words in WB and MEM cannot have changed. -/
theorem frameOfEveryInstructionInID : Obligations.FrameOfEveryInstructionInID := by
  intro i s t h
  have hrest : t.params = s.params ∧ t.inputs = s.inputs.tail := by
    rcases exec_cases h with ⟨w, _, rfl⟩ | ⟨f, _, rfl⟩
    · exact ⟨rfl, rfl⟩
    · exact ⟨rfl, rfl⟩
  refine ⟨fun r hr => ?_, fun m _ _ a ha => ?_, fun hm a => ?_, hrest⟩
  · by_contra hne
    obtain ⟨b, hb, hw, hn⟩ := exec_changes_register h hne
    exact hr b hb hw hn
  · by_contra hne
    obtain ⟨_, _, _, he⟩ := exec_changes_memory h hne
    exact ha he
  · by_contra hne
    obtain ⟨m, hc, hw, _⟩ := exec_changes_memory h hne
    simp [hm m hc] at hw

/-! ### The state invariant (R33, R107, R123) -/

/-- The sign-extended displacement lies in the range of R80, whatever integer it is made from. -/
theorem sEOffsetOf_range (imm : Int) :
    -32768 ≤ (sEOffsetOf imm).toInt ∧ (sEOffsetOf imm).toInt ≤ 32767 := by
  have he : (sEOffsetOf imm).toInt = (imm16 imm).toInt := BitVec.toInt_signExtend_of_le (by decide)
  have hl := BitVec.le_toInt (imm16 imm)
  have hu := BitVec.toInt_lt (x := imm16 imm)
  omega

/-- ID with an I-format record writes decoded contents (R76 to R80). -/
theorem idStage_outI_decoded {c : ControlSignals} (hc : c = ctrlLoad ∨ c = ctrlStore ∨ c = ctrlBranch)
    (imm : Int) (rs rt rd : RegIdx) (s : State) : (idStage (outI c imm) rs rt rd s).Decoded :=
  .inr (.inr ⟨by simpa [idStage, outI] using hc, rfl, _, rfl, sEOffsetOf_range imm⟩)

/-- ID writes decoded contents for every instruction. -/
theorem idOutput_decoded (i : Instr) (s : State) : (idOutput i s).Decoded := by
  cases i with
  | add rd rs rt sh => exact .inr (.inl ⟨rfl, .inl rfl, rfl⟩)
  | sub rd rs rt sh => exact .inr (.inl ⟨rfl, .inr rfl, rfl⟩)
  | lb rt rs imm => exact idStage_outI_decoded (.inl rfl) _ _ _ _ _
  | lw rt rs imm => exact idStage_outI_decoded (.inl rfl) _ _ _ _ _
  | sb rt rs imm => exact idStage_outI_decoded (.inr (.inl rfl)) _ _ _ _ _
  | sw rt rs imm => exact idStage_outI_decoded (.inr (.inl rfl)) _ _ _ _ _
  | beq rs rt imm => exact idStage_outI_decoded (.inr (.inr rfl)) _ _ _ _ _
  | bne rs rt imm => exact idStage_outI_decoded (.inr (.inr rfl)) _ _ _ _ _
  | nop => exact .inl rfl

/-- EX leaves executed contents where ID left decoded ones. -/
theorem exStage_executed {s : State} {e : EXMEM} (hd : s.idex.read.Decoded)
    (he : exStage s = .ok e) : e.Executed := by
  rcases hd with hc | ⟨hc, _⟩ | ⟨hc | hc | hc, _⟩
  · rw [exStage_noOp hc] at he
    cases he
    exact .inl rfl
  · obtain ⟨r, _, rfl⟩ := exStage_ok_active hc he
    exact .inr ⟨rfl, rfl, .inl ⟨.inl rfl, _, rfl⟩⟩
  · obtain ⟨r, _, rfl⟩ := exStage_ok_active hc he
    exact .inr ⟨rfl, rfl, .inl ⟨.inr rfl, _, rfl⟩⟩
  · obtain ⟨r, _, rfl⟩ := exStage_ok_active hc he
    exact .inr ⟨rfl, rfl, .inr ⟨.inl rfl, rfl⟩⟩
  · obtain ⟨r, _, rfl⟩ := exStage_ok_active hc he
    exact .inr ⟨rfl, rfl, .inr ⟨.inr rfl, rfl⟩⟩

/-- MEM leaves accessed contents where EX left executed ones. A branch passes MEM as a store does. -/
theorem memStage_accessed {s : State} {r : MEMWB} {mem : List Host.Cell}
    (he : s.exmem.read.Executed) (hm : memStage s = .ok (r, mem)) : r.Accessed := by
  rcases he with hc | ⟨_, _, ⟨hc | hc, hn⟩ | ⟨hc | hc, hn⟩⟩
  · rw [memStage_noOp hc] at hm
    cases hm
    exact .inl rfl
  · obtain ⟨_, rfl, _⟩ := memStage_ok_active hc hm
    exact .inr (.inl ⟨rfl, rfl, hn⟩)
  · obtain ⟨_, rfl, _⟩ := memStage_ok_active hc hm
    exact .inr (.inr (.inl ⟨rfl, ⟨_, rfl⟩, hn⟩))
  · obtain ⟨_, rfl, _⟩ := memStage_ok_active hc hm
    exact .inr (.inr (.inr ⟨rfl, rfl, hn⟩))
  · obtain ⟨_, rfl, _⟩ := memStage_ok_active hc hm
    exact .inr (.inr (.inr ⟨rfl, rfl, hn⟩))

/-- MEM keeps MainMemory canonical (R55). -/
theorem memStage_keeps_wf {s : State} {r : MEMWB} {mem : List Host.Cell}
    (hs : Memory.wf s.params s.mem = true) (hm : memStage s = .ok (r, mem)) :
    Memory.wf s.params mem = true := by
  cases hc : s.exmem.read.ctrl with
  | noOp => rw [memStage_noOp hc] at hm; cases hm; exact hs
  | active m =>
    obtain ⟨hv, _, rfl⟩ := memStage_ok_active hc hm
    cases hw : m.memWrite with
    | false => simpa using hs
    | true =>
      simp only [if_true]
      exact Memory.write_wfFrom hs (Nat.zero_le _) (hv (.inr hw))

/-- The reset state of any parameters has the invariant (R231). -/
theorem resetWith_inv (p : Params) (inputs : List PortInput) (trace : List CycleRecord) :
    (State.resetWith p inputs trace).Inv where
  memCanonical := rfl
  ifidCommitted := rfl
  idexCommitted := rfl
  exmemCommitted := rfl
  memwbCommitted := rfl
  unfetched := fun _ => rfl
  idexDecoded := .inl rfl
  exmemExecuted := .inl rfl
  memwbAccessed := .inl rfl
  haltedIffFault := rfl

/-- An edge that only passes keeps the invariant. -/
theorem edgePassed_inv {s : State} (h : s.Inv) : s.edgePassed.Inv :=
  { h with }

/-- A fault keeps the invariant: nothing of the cycle commits (R205). -/
theorem raiseFault_inv {s : State} (f : FaultRecord) (h : s.Inv) : (raiseFault f s).Inv :=
  { h with haltedIffFault := rfl }

/-- A committed cycle keeps the invariant: each stage leaves what the next one expects. -/
theorem endCycle_inv {s : State} {w : OlderWork} (i : Instr) (h : s.Inv)
    (hw : olderStages s = .ok w) : (endCycle (stagesRun (idOutput i s) w s)).Inv := by
  obtain ⟨he, hm, _⟩ := olderStages_ok_iff.1 hw
  exact
    { memCanonical := memStage_keeps_wf (s := s) h.memCanonical hm
      ifidCommitted := rfl
      idexCommitted := rfl
      exmemCommitted := rfl
      memwbCommitted := rfl
      unfetched := fun hn => by simp [ifStage] at hn
      idexDecoded := idOutput_decoded i s
      exmemExecuted := exStage_executed h.idexDecoded he
      memwbAccessed := memStage_accessed h.exmemExecuted hm
      haltedIffFault := h.haltedIffFault }

/-- Settles O48, by the four things a step can leave. -/
theorem everyStepKeepsTheInvariant : Obligations.EveryStepKeepsTheInvariant := by
  intro s t hs h
  rcases step_next_cases h with ⟨_, rfl⟩ | rfl | ⟨f, rfl⟩ | ⟨i, w, _, hw, rfl⟩
  · exact resetWith_inv _ _ _
  · exact edgePassed_inv hs
  · exact raiseFault_inv f hs
  · exact endCycle_inv i hs hw

/-! ### incrPC follows the cycle counter (R24, R105) -/

/-- The reset state of any parameters has its tags right: it has fetched nothing (R231). -/
theorem resetWith_tagInv (p : Params) (inputs : List PortInput) (trace : List CycleRecord) :
    (State.resetWith p inputs trace).TagInv where
  ifidTag := fun _ h => by cases h
  ifidNone := fun _ => rfl
  idexTag := fun h => absurd rfl h
  exmemTag := fun h => absurd rfl h

/-- A record in ID/EX carries IF/ID's incrPC, and comes from another instruction than `nop`. -/
theorem idOutput_incrPC {i : Instr} {s : State} (h : (idOutput i s).ctrl ≠ .noOp) :
    i ≠ .nop ∧ (idOutput i s).incrPC = s.incrPCInID := by
  cases i with
  | nop => exact absurd rfl h
  | _ => exact ⟨nofun, rfl⟩

/-- A word that decodes to another instruction than `nop` was fetched (R107). -/
theorem incrPC_isSome_of_decode {s : State} {i : Instr} (hs : s.Inv)
    (hd : decode s.wordInID = .ok i) (hi : i ≠ .nop) : ∃ p, s.ifid.read.incrPC = some p := by
  cases hp : s.ifid.read.incrPC with
  | some p => exact ⟨p, rfl⟩
  | none =>
    rw [State.wordInID, hs.unfetched hp] at hd
    cases hd
    exact absurd rfl hi

/-- Before the first fetch the counter is at 1, so START_PC itself is the tag that IF adds 4 to (R105). -/
theorem State.TagInv.fetchBase {s : State} (ht : s.TagInv) :
    s.ifid.read.incrPC.getD s.params.startPC = s.params.startPC + 4 * (s.cycle - 1) := by
  cases hp : s.ifid.read.incrPC with
  | some p => exact ht.ifidTag p hp
  | none => simp [ht.ifidNone hp]

/-- EX passes the tag of its record on (R111), and a no-op record where it has none (R108). -/
theorem exStage_incrPC {s : State} {e : EXMEM} (he : exStage s = .ok e) (hc : e.ctrl ≠ .noOp) :
    s.idex.read.ctrl ≠ .noOp ∧ e.incrPC = s.idex.read.incrPC := by
  cases hd : s.idex.read.ctrl with
  | noOp => rw [exStage_noOp hd] at he; cases he; exact absurd rfl hc
  | active c =>
    obtain ⟨r, _, rfl⟩ := exStage_ok_active hd he
    exact ⟨nofun, rfl⟩

/-- A committed cycle keeps the tags: each moves one register on as the counter advances. -/
theorem endCycle_tagInv {s : State} {w : OlderWork} {i : Instr} (hs : s.Inv) (ht : s.TagInv)
    (hd : decode s.wordInID = .ok i) (hw : olderStages s = .ok w) :
    (endCycle (stagesRun (idOutput i s) w s)).TagInv where
  ifidTag := fun p hp => by
    simp only [endCycle_ifid, both_read, ifStage, ht.fetchBase, Option.some.injEq] at hp
    rw [endCycle_params, endCycle_cycle, ← hp]
    ring
  ifidNone := fun hn => by simp [ifStage] at hn
  idexTag := fun hc => by
    obtain ⟨hi, hpc⟩ := idOutput_incrPC hc
    obtain ⟨p, hp⟩ := incrPC_isSome_of_decode hs hd hi
    have htag : (idOutput i s).incrPC = s.params.startPC + 4 * (s.cycle - 1) := by
      rw [hpc, State.incrPCInID, hp]
      exact ht.ifidTag p hp
    rw [endCycle_idex, both_read, endCycle_params, endCycle_cycle, htag]
    ring
  exmemTag := fun hc => by
    obtain ⟨he, _, _⟩ := olderStages_ok_iff.1 hw
    obtain ⟨hd', hpc⟩ := exStage_incrPC he hc
    rw [endCycle_exmem, both_read, endCycle_params, endCycle_cycle, hpc, ht.idexTag hd']
    ring

/-- Settles O49, by the four things a step can leave. -/
theorem everyStepKeepsTheIncrPCTags : Obligations.EveryStepKeepsTheIncrPCTags := by
  intro s t hs ht h
  rcases step_next_cases h with ⟨_, rfl⟩ | rfl | ⟨f, rfl⟩ | ⟨i, w, hd, hw, rfl⟩
  · exact resetWith_tagInv _ _ _
  · exact { ht with }
  · exact { ht with }
  · exact endCycle_tagInv hs ht hd hw

/-! ### What the tags cannot influence (R24, R34) -/

/-- A cell reads alike under two parameter records with one MEM_INIT. -/
theorem Memory.read_congr_memInit {p q : Params} (h : q.memInit = p.memInit) (m : List Host.Cell)
    (a : Nat) : Memory.read q m a = Memory.read p m a := by
  induction m with
  | nil => simp [Memory.read, Memory.unlisted, Params.seed, h]
  | cons c m ih => simp [Memory.read, ih]

/-- A write leaves the same memory under two parameter records with one MEM_INIT. -/
theorem Memory.write_congr_memInit {p q : Params} (h : q.memInit = p.memInit) (m : List Host.Cell)
    (a : Nat) (v : Byte) : Memory.write q a v m = Memory.write p a v m := by
  have hu : Memory.unlisted q a = Memory.unlisted p a := by simp [Memory.unlisted, Params.seed, h]
  induction m with
  | nil => simp [Memory.write, hu]
  | cons c m ih => simp [Memory.write, hu, ih]

namespace SameButTags

variable {s t : State}

theorem memSize_eq (h : SameButTags s t) : t.params.memSize = s.params.memSize := by
  simp [Params.memSize, h.memTop]

theorem readByte_eq (h : SameButTags s t) (a : Nat) : t.readByte a = s.readByte a := by
  rw [State.readByte, h.mem]
  exact Memory.read_congr_memInit h.memInit _ _

theorem portIn_eq (h : SameButTags s t) : t.portIn = s.portIn := by
  simp [State.portIn, h.inputs]

theorem wordInID_eq (h : SameButTags s t) : t.wordInID = s.wordInID := h.word

/-- ID writes the same but for the tag. -/
theorem idOutput_eq (h : SameButTags s t) (i : Instr) :
    ∃ p, idOutput i t = { idOutput i s with incrPC := p } := by
  obtain ⟨p, hp⟩ := h.idexWrite
  cases i with
  | nop => exact ⟨p, by simp [idOutput, idNoOp, hp]⟩
  | _ => exact ⟨t.incrPCInID, by simp [idOutput, idStage, h.x]⟩

/-- EX raises the same fault, or writes the same but for the tag. -/
theorem exStage_eq (h : SameButTags s t) :
    (∃ f, exStage s = .error f ∧ exStage t = .error f) ∨
    (∃ e p, exStage s = .ok e ∧ exStage t = .ok { e with incrPC := p }) := by
  obtain ⟨p, hp⟩ := h.idexRead
  obtain ⟨q, hq⟩ := h.exmemWrite
  have hct : t.idex.read.ctrl = s.idex.read.ctrl := by rw [hp]
  cases hc : s.idex.read.ctrl with
  | noOp =>
    refine .inr ⟨_, q, exStage_noOp hc, ?_⟩
    rw [exStage_noOp (hct.trans hc), hq]
  | active c =>
    have ha : alu c t.idex.read = alu c s.idex.read := by rw [hp]; rfl
    have hn : destSelect c t.idex.read = destSelect c s.idex.read := by rw [hp]; rfl
    rw [exStage_active hc, exStage_active (hct.trans hc), ha, hn]
    cases alu c s.idex.read with
    | error f => exact .inl ⟨f, rfl, rfl⟩
    | ok r => exact .inr ⟨_, p, rfl, by simp [hp]⟩

/-- MEM does the same. -/
theorem memStage_eq (h : SameButTags s t) : memStage t = memStage s := by
  obtain ⟨p, hp⟩ := h.exmemRead
  have hct : t.exmem.read.ctrl = s.exmem.read.ctrl := by rw [hp]
  cases hc : s.exmem.read.ctrl with
  | noOp => rw [memStage_noOp hc, memStage_noOp (hct.trans hc), h.memwb, h.mem]
  | active m =>
    rw [memStage_active hc, memStage_active (hct.trans hc)]
    simp only [hp, h.memSize_eq, h.readByte_eq, h.mem, Memory.write_congr_memInit h.memInit]

/-- WB does the same. -/
theorem wbStage_eq (h : SameButTags s t) : wbStage t = wbStage s := by
  simp only [wbStage, h.memwb, h.x]

/-- The stages behind ID raise the same fault, or do the same but for the tag in EX/MEM. -/
theorem olderStages_eq (h : SameButTags s t) :
    (∃ f, olderStages s = .error f ∧ olderStages t = .error f) ∨
    (∃ w p, olderStages s = .ok w ∧
      olderStages t = .ok { w with exmem := { w.exmem with incrPC := p } }) := by
  simp only [olderStages, h.memStage_eq, h.wbStage_eq]
  rcases h.exStage_eq with ⟨f, hs, ht⟩ | ⟨e, p, hs, ht⟩
  · exact .inl ⟨f, by simp [hs], by simp [ht]⟩
  · rw [hs, ht]
    cases memStage s with
    | error f => exact .inl ⟨f, rfl, rfl⟩
    | ok m =>
      cases wbStage s with
      | error f => exact .inl ⟨f, rfl, rfl⟩
      | ok x => exact .inr ⟨_, p, rfl, rfl⟩

theorem resetEdge (h : SameButTags s t) : SameButTags (resetEdge s) (resetEdge t) where
  x := rfl
  mem := rfl
  memTop := h.memTop
  memInit := h.memInit
  word := rfl
  idexRead := ⟨_, rfl⟩
  idexWrite := ⟨_, rfl⟩
  exmemRead := ⟨_, rfl⟩
  exmemWrite := ⟨_, rfl⟩
  memwb := rfl
  halted := rfl
  fault := rfl
  inputs := congrArg List.tail h.inputs

theorem edgePassed (h : SameButTags s t) : SameButTags s.edgePassed t.edgePassed :=
  { h with inputs := congrArg List.tail h.inputs }

theorem raiseFault (h : SameButTags s t) (f : FaultRecord) :
    SameButTags (raiseFault f s) (raiseFault f t) :=
  { h.edgePassed with halted := rfl, fault := rfl }

/-- A committed cycle keeps the relation when its ID/EX and EX/MEM differ in the tag only. -/
theorem endCycle (h : SameButTags s t) (d : IDEX) (w : OlderWork) (p q : Word) :
    SameButTags (endCycle (stagesRun d w s))
      (endCycle (stagesRun { d with incrPC := p }
        { w with exmem := { w.exmem with incrPC := q } } t)) where
  x := rfl
  mem := rfl
  memTop := h.memTop
  memInit := h.memInit
  word := congrArg PortInput.instrIn h.portIn_eq
  idexRead := ⟨p, rfl⟩
  idexWrite := ⟨p, rfl⟩
  exmemRead := ⟨q, rfl⟩
  exmemWrite := ⟨q, rfl⟩
  memwb := rfl
  halted := h.halted
  fault := h.fault
  inputs := congrArg List.tail h.inputs

/-- A cycle with the same instruction in ID keeps the relation. -/
theorem runCycle (h : SameButTags s t) (i : Instr) :
    SameButTags (runCycle (idOutput i s) s) (runCycle (idOutput i t) t) := by
  obtain ⟨p, hp⟩ := h.idOutput_eq i
  rcases h.olderStages_eq with ⟨f, hs, ht⟩ | ⟨w, q, hs, ht⟩
  · simpa only [Machine.runCycle, hs, ht] using h.raiseFault f
  · simpa only [Machine.runCycle, hs, ht, hp] using h.endCycle _ w p q

end SameButTags

/-- Settles O54: related states take edges of one kind with one word in ID, and each kind keeps the
relation. -/
theorem tagsInfluenceNothingElse : Obligations.TagsInfluenceNothingElse := by
  intro s t s' t' h hs ht
  have hrst : t.portIn.rst = s.portIn.rst := congrArg PortInput.rst h.portIn_eq
  rcases step_cases hs with ⟨hr, rfl⟩ | ⟨hr, hh, rfl⟩ | ⟨hr, hh, ⟨r, hd, rfl⟩ | ⟨i, hd, he⟩⟩
  · rw [step_eq_resetEdge (hrst.trans hr)] at ht
    cases ht
    exact h.resetEdge
  · rw [step_eq_idleEdge (hrst.trans hr) (h.halted.trans hh)] at ht
    cases ht
    exact h.edgePassed
  · rw [step_eq_raiseFault (hrst.trans hr) (h.halted.trans hh) (h.wordInID_eq ▸ hd)] at ht
    cases ht
    exact h.raiseFault _
  · rw [step_eq_runCycle (hrst.trans hr) (h.halted.trans hh) (h.wordInID_eq ▸ hd)] at ht
    rw [exec_eq_runCycle] at he
    cases ht
    cases he
    exact h.runCycle i

end Sys2Proof.Machine

/-! SUPPORT. The statements of 20_memory.md: who writes MainMemory, that its canonical form is one, and a load
right behind a store. -/

namespace Sys2Proof.Machine

/-! ### Who writes MainMemory (R54) -/

/-- Settles O42: a step that changes a byte is a cycle, whose word in MEM stores there. -/
theorem onlyMEMWritesMainMemory : Obligations.OnlyMEMWritesMainMemory := by
  intro s t a hrst h ha
  rcases step_cases h with ⟨hr, _⟩ | ⟨_, _, rfl⟩ | ⟨_, _, ⟨q, _, rfl⟩ | ⟨i, _, he⟩⟩
  · simp [hrst] at hr
  · exact absurd rfl ha
  · exact absurd rfl ha
  · exact exec_changes_memory he ha

/-! ### The canonical form is one (R50) -/

theorem Memory.wfFrom_cons_iff {p : Params} {lo a : Nat} {v : Byte} {m : List Host.Cell} :
    Memory.wfFrom p lo ((a, v) :: m) = true ↔
      lo ≤ a ∧ a < p.memSize ∧ v ≠ Memory.unlisted p a ∧ Memory.wfFrom p (a + 1) m = true := by
  simp only [Memory.wfFrom, Bool.and_eq_true, decide_eq_true_eq, and_assoc]

theorem Memory.read_cons_same (p : Params) (a : Nat) (v : Byte) (m : List Host.Cell) :
    Memory.read p ((a, v) :: m) a = v := by
  simp [Memory.read]

theorem Memory.read_cons_other {p : Params} {a b : Nat} {v : Byte} {m : List Host.Cell} (h : a ≠ b) :
    Memory.read p ((b, v) :: m) a = Memory.read p m a := by
  simp [Memory.read, h]

/-- The first listed cell tells a canonical memory from one that lists only cells above it. -/
theorem Memory.read_head_ne {p : Params} {lo a : Nat} {v : Byte} {m m' : List Host.Cell}
    (h : Memory.wfFrom p lo ((a, v) :: m) = true) (h' : Memory.wfFrom p (a + 1) m' = true) :
    Memory.read p ((a, v) :: m) a ≠ Memory.read p m' a := by
  obtain ⟨_, _, hv, _⟩ := Memory.wfFrom_cons_iff.1 h
  rwa [Memory.read_cons_same, Memory.read_below h' (Nat.lt_succ_self a)]

/-- A canonical memory is one from above any address that is below its first listed cell. -/
theorem Memory.wfFrom_of_lt_head {p : Params} {lo a b : Nat} {u : Byte} {m : List Host.Cell}
    (h : Memory.wfFrom p lo ((b, u) :: m) = true) (hab : a < b) :
    Memory.wfFrom p (a + 1) ((b, u) :: m) = true := by
  obtain ⟨_, hrest⟩ := Memory.wfFrom_cons_iff.1 h
  exact Memory.wfFrom_cons_iff.2 ⟨hab, hrest⟩

/-- Canonical memories from `lo` up that read alike from there are equal: their first listed cells are at
one address, and the rest read alike above it. -/
theorem Memory.eq_of_read_eq {p : Params} {lo : Nat} {m m' : List Host.Cell}
    (h : Memory.wfFrom p lo m = true) (h' : Memory.wfFrom p lo m' = true)
    (hread : ∀ a, lo ≤ a → a < p.memSize → Memory.read p m a = Memory.read p m' a) : m = m' := by
  induction m generalizing lo m' with
  | nil =>
    cases m' with
    | nil => rfl
    | cons c' m' =>
      obtain ⟨b, u⟩ := c'
      obtain ⟨hlo, hb, _⟩ := Memory.wfFrom_cons_iff.1 h'
      exact absurd (hread b hlo hb).symm (Memory.read_head_ne h' rfl)
  | cons c m ih =>
    obtain ⟨a, v⟩ := c
    obtain ⟨hlo, ha, _, hm⟩ := Memory.wfFrom_cons_iff.1 h
    cases m' with
    | nil => exact absurd (hread a hlo ha) (Memory.read_head_ne h rfl)
    | cons c' m' =>
      obtain ⟨b, u⟩ := c'
      obtain ⟨hlo', hb, _, hm'⟩ := Memory.wfFrom_cons_iff.1 h'
      rcases lt_trichotomy a b with hab | rfl | hba
      · exact absurd (hread a hlo ha) (Memory.read_head_ne h (Memory.wfFrom_of_lt_head h' hab))
      · have hvu : v = u := by simpa only [Memory.read_cons_same] using hread a hlo ha
        have htail : m = m' := ih hm hm' fun c hc hcm => by
          have hca : c ≠ a := by omega
          simpa only [Memory.read_cons_other hca] using hread c (by omega) hcm
        rw [hvu, htail]
      · exact absurd (hread b hlo' hb).symm
          (Memory.read_head_ne h' (Memory.wfFrom_of_lt_head h hba))

/-- Settles O46, from address 0 up. -/
theorem canonicalMemoriesReadingAlikeAreEqual : Obligations.CanonicalMemoriesReadingAlikeAreEqual :=
  fun _ _ _ h h' hread => Memory.eq_of_read_eq h h' fun a _ ha => hread a ha

/-! ### A committed cycle, stage by stage (R100, R103) -/

/-- `t` is what a committed cycle with `i` in ID leaves of `s`: each stage's result is on the read side of
the register behind it. -/
structure State.Commits (i : Instr) (s t : State) : Prop where
  id     : t.idex.read = idOutput i s
  ex     : exStage s = .ok t.exmem.read
  mem    : memStage s = .ok (t.memwb.read, t.mem)
  wb     : wbStage s = .ok t.x
  params : t.params = s.params

theorem endCycle_commits {s : State} {w : OlderWork} (i : Instr) (hw : olderStages s = .ok w) :
    State.Commits i s (endCycle (stagesRun (idOutput i s) w s)) := by
  obtain ⟨he, hm, hx⟩ := olderStages_ok_iff.1 hw
  exact ⟨rfl, he, hm, hx, rfl⟩

/-- A cycle that leaves the core running has committed. -/
theorem exec_commits {i : Instr} {s t : State} (h : exec i s = .next t) (ht : t.halted = false) :
    State.Commits i s t := by
  obtain ⟨w, hw, rfl⟩ := exec_committed h ht
  exact endCycle_commits i hw

/-- An edge without reset that leaves the core running finds it running, and has committed the cycle of the
word in ID. -/
theorem step_commits {n : Nat} {s t : State} (hl : s.rstLow (n + 1)) (h : step s = .next t)
    (ht : t.halted = false) :
    s.halted = false ∧ ∃ i, decode s.wordInID = .ok i ∧ State.Commits i s t := by
  obtain ⟨hr, _⟩ := rstLow_succ hl
  refine ⟨running_before hr h ht, ?_⟩
  obtain ⟨i, w, hd, hw, rfl⟩ := step_committed hr h ht
  exact ⟨i, hd, endCycle_commits i hw⟩

/-- A cycle uses up one entry of the `rst` values known to be low. -/
theorem rstLow_after_exec {n : Nat} {i : Instr} {s t : State} (hl : s.rstLow (n + 1))
    (h : exec i s = .next t) : t.rstLow n := by
  refine (rstLow_succ hl).2 t ?_
  rcases exec_cases h with ⟨w, _, rfl⟩ | ⟨f, _, rfl⟩
  · rfl
  · rfl

/-- A step uses up one entry of the `rst` values known to be low. -/
theorem rstLow_after_step {n : Nat} {s t : State} (hl : s.rstLow (n + 1)) (h : step s = .next t) :
    t.rstLow n :=
  (rstLow_succ hl).2 t (step_inputs h)

/-- A committed cycle keeps MainMemory canonical. -/
theorem State.Commits.keeps_wf {i : Instr} {s t : State} (c : State.Commits i s t)
    (hs : Memory.wf s.params s.mem = true) : Memory.wf t.params t.mem = true := by
  rw [c.params]
  exact memStage_keeps_wf hs c.mem

/-! ### Loads and stores, whatever else is in flight (R234) -/

theorem idOutput_store {i : Instr} {rt rs : RegIdx} {imm : Int}
    (hi : i = .sb rt rs imm ∨ i = .sw rt rs imm) (s : State) :
    idOutput i s = idStage (outI ctrlStore imm) rs rt (immBits_15_11 imm) s := by
  rcases hi with rfl | rfl
  · rfl
  · rfl

theorem idOutput_load {i : Instr} {rt rs : RegIdx} {imm : Int}
    (hi : i = .lb rt rs imm ∨ i = .lw rt rs imm) (s : State) :
    idOutput i s = idStage (outI ctrlLoad imm) rs rt (immBits_15_11 imm) s := by
  rcases hi with rfl | rfl
  · rfl
  · rfl

/-- EX leaves, of an I-format word that ID read in `s₀`, its effective address and its register `rt`, as
they were in `s₀` (R110, R111). -/
theorem State.Commits.exmem_of_outI {k : Instr} {s₀ s t : State} {c : ControlSignals} {imm : Int}
    {rs rt bits : RegIdx} (hs : State.Commits k s t)
    (hid : s.idex.read = idStage (outI c imm) rs rt bits s₀) (hop : c.aluOp = .effectiveAddress) :
    t.exmem.read.ctrl = .active c.passEX ∧
    t.exmem.read.aluResult = effectiveAddress (s₀.x.read rs) imm ∧
    t.exmem.read.writeRegNum = destSelect c s.idex.read ∧
    t.exmem.read.sWValue = s₀.x.read rt := by
  have hctrl : s.idex.read.ctrl = .active c := by rw [hid]; rfl
  have halu : alu c s.idex.read = .ok (effectiveAddress (s₀.x.read rs) imm) := by
    simp only [alu, hop, hid, idStage, outI, effectiveAddress]
  obtain ⟨r, hr, he⟩ := exStage_ok_active hctrl hs.ex
  obtain rfl : r = effectiveAddress (s₀.x.read rs) imm := by simpa [halu] using hr.symm
  rw [he]
  exact ⟨rfl, rfl, rfl, by rw [hid]; rfl⟩

/-- WB with a load writes the loaded value (R117). -/
theorem wbStage_load {s : State} {n : RegIdx} {v : Word}
    (hc : s.memwb.read.ctrl = .active ctrlLoad.passEX.passMEM)
    (hn : s.memwb.read.writeRegNum = some n) (hv : s.memwb.read.lWDataValue = some v) :
    wbStage s = .ok (s.x.write n v) := by
  have hval : wbValue ctrlLoad.passEX.passMEM s.memwb.read = .ok v := by
    simp only [wbValue, ctrlLoad, ControlSignals.passEX, ExMemSignals.passMEM, hv]
  rw [wbStage_write hc rfl, hn, hval]

/-- A store has its byte in MainMemory after the third edge, its sources read in its ID cycle (R152). -/
theorem store_in_flight {i k k' : Instr} {rt rs : RegIdx} {imm : Int} {s s1 s2 s3 : State}
    (hi : i = .sb rt rs imm ∨ i = .sw rt rs imm) (h1 : State.Commits i s s1)
    (h2 : State.Commits k s1 s2) (h3 : State.Commits k' s2 s3) :
    s3.mem = Memory.write s2.params (effectiveAddress (s.x.read rs) imm).toNat
      ((s.x.read rt).extractLsb' 0 8) s2.mem := by
  obtain ⟨hctrl, haddr, _, hval⟩ := h2.exmem_of_outI (h1.id.trans (idOutput_store hi s)) rfl
  obtain ⟨_, _, hmem⟩ := memStage_ok_active hctrl h3.mem
  rw [hmem, haddr, hval]
  rfl

/-- A load has the byte that its address held before the third edge, zero-extended, in its register after
the fourth (R150). -/
theorem load_in_flight {i k k' k'' : Instr} {rt rs : RegIdx} {imm : Int} {s s1 s2 s3 s4 : State}
    (hi : i = .lb rt rs imm ∨ i = .lw rt rs imm) (h1 : State.Commits i s s1)
    (h2 : State.Commits k s1 s2) (h3 : State.Commits k' s2 s3) (h4 : State.Commits k'' s3 s4) :
    s4.x = s3.x.write rt
      ((s2.readByte (effectiveAddress (s.x.read rs) imm).toNat).setWidth 32) := by
  have hid := h1.id.trans (idOutput_load hi s)
  obtain ⟨hctrl, haddr, hdest, _⟩ := h2.exmem_of_outI hid rfl
  have hn : s2.exmem.read.writeRegNum = some rt := by rw [hdest, hid]; rfl
  obtain ⟨_, hwb, _⟩ := memStage_ok_active hctrl h3.mem
  have hx : wbStage s3 = .ok (s3.x.write rt
      ((s2.readByte (effectiveAddress (s.x.read rs) imm).toNat).setWidth 32)) := by
    apply wbStage_load
    · rw [hwb]
    · rw [hwb, hn]
    · rw [hwb, ← haddr]; rfl
  exact Except.ok.inj (h4.wb.symm.trans hx)

/-- A load one cycle behind a store to its address gets the stored byte: MEM stores it at the third edge,
and MEM loads it at the fourth (R61). -/
theorem load_behind_store {i j k k' k'' : Instr} {rt rs rt' rs' : RegIdx} {imm imm' : Int}
    {s s1 s2 s3 s4 s5 : State} (hwf : Memory.wf s.params s.mem = true)
    (hi : i = .sb rt rs imm ∨ i = .sw rt rs imm) (hj : j = .lb rt' rs' imm' ∨ j = .lw rt' rs' imm')
    (haddr : effectiveAddress (s1.x.read rs') imm' = effectiveAddress (s.x.read rs) imm)
    (h1 : State.Commits i s s1) (h2 : State.Commits j s1 s2) (h3 : State.Commits k s2 s3)
    (h4 : State.Commits k' s3 s4) (h5 : State.Commits k'' s4 s5) :
    s5.x.read rt' = ((s.x.read rt).extractLsb' 0 8).setWidth 32 := by
  have hbyte : s3.readByte (effectiveAddress (s.x.read rs) imm).toNat =
      (s.x.read rt).extractLsb' 0 8 := by
    rw [State.readByte, store_in_flight hi h1 h2 h3, h3.params]
    exact Memory.read_write_same (h2.keeps_wf (h1.keeps_wf hwf))
  rw [load_in_flight hj h2 h3 h4 h5, RegFile.read_write_same, haddr, hbyte]

/-- Settles O53: the core ran at every one of the five edges, so each committed its cycle. -/
theorem loadBehindStoreSeesTheStoredByte : Obligations.LoadBehindStoreSeesTheStoredByte := by
  intro i j rt rs rt' rs' imm imm' s s1 s2 s3 s4 s5 _ hl hwf hi hj e1 hd haddr e2 e3 e4 e5 hh5
  have hl1 := rstLow_after_exec hl e1
  have hl2 := rstLow_after_step hl1 e2
  have hl3 := rstLow_after_step hl2 e3
  have hl4 := rstLow_after_step hl3 e4
  obtain ⟨hh4, _, _, c5⟩ := step_commits hl4 e5 hh5
  obtain ⟨hh3, _, _, c4⟩ := step_commits hl3 e4 hh4
  obtain ⟨hh2, _, _, c3⟩ := step_commits hl2 e3 hh3
  obtain ⟨hh1, j', hd', c2⟩ := step_commits hl1 e2 hh2
  obtain rfl : j' = j := Except.ok.inj (hd'.symm.trans hd)
  exact load_behind_store hwf hi hj haddr (exec_commits e1 hh1) c2 c3 c4 c5

end Sys2Proof.Machine

/-! SUPPORT. The statements of 30_encoding.md: decode and encode undo each other, the decoder is R83's table
on the raw bits, and what R82 and R84 say makes no difference to a meaning. -/

namespace Sys2Proof

/-! ### Displacements (R80) -/

theorem immFits_iff {imm : Int} : immFits imm = true ↔ -32768 ≤ imm ∧ imm ≤ 32767 := by simp [immFits]

/-- The 16-bit field gives a displacement in range back. -/
theorem toInt_ofInt_of_immFits {imm : Int} (h : immFits imm = true) : (BitVec.ofInt 16 imm).toInt = imm := by
  obtain ⟨hl, hu⟩ := immFits_iff.1 h
  exact BitVec.toInt_ofInt_eq_self (by decide) hl (by omega)

/-- The two's-complement reading of a 16-bit field is in range. -/
theorem immFits_toInt (b : BitVec 16) : immFits b.toInt = true := by
  have hl := BitVec.le_toInt b
  have hu := BitVec.toInt_lt (x := b)
  exact immFits_iff.2 ⟨by omega, by omega⟩

/-! ### The I-format rows, once for all six -/

/-- The opcode table finds a row for an opcode iff the opcode is that row's (R76). -/
theorem ofOpcode_eq_some_iff {op : Opcode} {f : IForm} : IForm.ofOpcode op = some f ↔ f.opcode = op :=
  ⟨opcode_of_ofOpcode f, fun h => h ▸ ofOpcode_opcode f⟩

@[simp] theorem encode_instr (f : IForm) (rs rt : RegIdx) (imm : Int) :
    encode (f.instr rs rt imm) = encodeI f rs rt imm := by cases f <;> rfl

@[simp] theorem wellFormed_instr (f : IForm) (rs rt : RegIdx) (imm : Int) :
    (f.instr rs rt imm).wellFormed = immFits imm := by cases f <;> rfl

@[simp] theorem functSub_ne_functAdd : functSub ≠ functAdd := by decide

/-! ### The decoder by the kind of word (R72, R73) -/

theorem decode_of_rFormat {w : Word} (hw : w ≠ 0) (h : opcodeOf w = 0) : decode w = decodeR w := by
  rw [decode, if_neg hw, if_pos h]

theorem decode_of_iFormat {w : Word} (h : opcodeOf w ≠ 0) : decode w = decodeI w := by
  have hw : w ≠ 0 := by rintro rfl; exact h rfl
  rw [decode, if_neg hw, if_neg h]

/-- What an accepted word is: zero, of `add` or `sub` by its function code, or of a row by its opcode. -/
theorem decode_ok_cases {w : Word} {i : Instr} (h : decode w = .ok i) :
    (w = 0 ∧ i = .nop) ∨
    (opcodeOf w = 0 ∧ functOf w = functAdd ∧ i = .add (rdOf w) (rsOf w) (rtOf w) (shamtOf w)) ∨
    (opcodeOf w = 0 ∧ functOf w = functSub ∧ i = .sub (rdOf w) (rsOf w) (rtOf w) (shamtOf w)) ∨
    (∃ f : IForm, opcodeOf w = f.opcode ∧ i = f.instr (rsOf w) (rtOf w) (imm16Of w).toInt) := by
  by_cases hw : w = 0
  · rw [decode, if_pos hw] at h
    exact .inl ⟨hw, (Except.ok.inj h).symm⟩
  by_cases hop : opcodeOf w = 0
  · rw [decode_of_rFormat hw hop, decodeR] at h
    split_ifs at h with hadd hsub
    · exact .inr (.inl ⟨hop, hadd, (Except.ok.inj h).symm⟩)
    · exact .inr (.inr (.inl ⟨hop, hsub, (Except.ok.inj h).symm⟩))
  · rw [decode_of_iFormat hop, decodeI] at h
    split at h
    next f hf => exact .inr (.inr (.inr ⟨f, (ofOpcode_eq_some_iff.1 hf).symm, (Except.ok.inj h).symm⟩))
    next => cases h

/-! ### Decode after encode (R71, R74, R76) -/

/-- An R-format word with a function code other than 0 is not the zero word. -/
theorem encodeR_ne_zero {fn : Funct} (hfn : fn ≠ 0) (rs rt rd : RegIdx) (sh : BitVec 5) :
    encodeR rs rt rd sh fn ≠ 0 := by
  intro h
  have hf := functOf_encodeR rs rt rd sh fn
  rw [h] at hf
  exact hfn hf.symm

theorem decode_encodeR {fn : Funct} (hfn : fn ≠ 0) (rs rt rd : RegIdx) (sh : BitVec 5) :
    decode (encodeR rs rt rd sh fn) = decodeR (encodeR rs rt rd sh fn) :=
  decode_of_rFormat (encodeR_ne_zero hfn rs rt rd sh) (opcodeOf_encodeR rs rt rd sh fn)

theorem decode_encodeI (f : IForm) (rs rt : RegIdx) {imm : Int} (h : immFits imm = true) :
    decode (encodeI f rs rt imm) = .ok (f.instr rs rt imm) := by
  have hop : opcodeOf (encodeI f rs rt imm) ≠ 0 := by simpa using opcode_ne_zero f
  simp [decode_of_iFormat hop, decodeI, toInt_ofInt_of_immFits h]

/-- Settles O1: the fields of an encoded word are its operands, and the I-format rows are one case. -/
theorem decodeOfEncodeIsIdentity : Obligations.DecodeOfEncodeIsIdentity := by
  intro i h
  cases i with
  | add rd rs rt sh =>
    rw [encode, decode_encodeR (by decide)]
    simp [decodeR]
  | sub rd rs rt sh =>
    rw [encode, decode_encodeR (by decide)]
    simp [decodeR]
  | lb rt rs imm => exact decode_encodeI .lb rs rt h
  | lw rt rs imm => exact decode_encodeI .lw rs rt h
  | sb rt rs imm => exact decode_encodeI .sb rs rt h
  | sw rt rs imm => exact decode_encodeI .sw rs rt h
  | beq rs rt imm => exact decode_encodeI .beq rs rt h
  | bne rs rt imm => exact decode_encodeI .bne rs rt h
  | nop => rfl

/-! ### Encode after decode (R71, R82, R85) -/

/-- The fields the two layouts share are the upper half of the word. -/
theorem opcode_rs_rt_fields (w : Word) :
    (opcodeOf w ++ rsOf w ++ rtOf w : BitVec 16) = w.extractLsb' 16 16 := by
  unfold opcodeOf rsOf rtOf
  rw [BitVec.extractLsb'_append_extractLsb'_eq_extractLsb' (show 26 = 21 + 5 from rfl),
    BitVec.extractLsb'_append_extractLsb'_eq_extractLsb' (show 21 = 16 + 5 from rfl)]

/-- A word with opcode 0 is the R-format layout of its own fields. -/
theorem encodeR_fields {w : Word} (h : opcodeOf w = 0#6) :
    encodeR (rsOf w) (rtOf w) (rdOf w) (shamtOf w) (functOf w) = w := by
  rw [encodeR, ← h, opcode_rs_rt_fields, rdOf, shamtOf, functOf,
    BitVec.extractLsb'_append_extractLsb'_eq_extractLsb' (show 16 = 11 + 5 from rfl),
    BitVec.extractLsb'_append_extractLsb'_eq_extractLsb' (show 11 = 6 + 5 from rfl),
    BitVec.extractLsb'_append_extractLsb'_eq_extractLsb' (show 6 = 0 + 6 from rfl)]
  exact BitVec.extractLsb'_eq_self

/-- A word with a row's opcode is the I-format layout of its own fields. -/
theorem encodeI_fields {w : Word} {f : IForm} (h : opcodeOf w = f.opcode) :
    encodeI f (rsOf w) (rtOf w) (imm16Of w).toInt = w := by
  rw [encodeI, BitVec.ofInt_toInt, ← h, opcode_rs_rt_fields, imm16Of,
    BitVec.extractLsb'_append_extractLsb'_eq_extractLsb' (show 16 = 0 + 16 from rfl)]
  exact BitVec.extractLsb'_eq_self

/-- Settles O2, by the kinds of word the decoder accepts. -/
theorem encodeOfDecodeIsIdentity : Obligations.EncodeOfDecodeIsIdentity := by
  intro w i h
  rcases decode_ok_cases h with ⟨rfl, rfl⟩ | ⟨hop, hfn, rfl⟩ | ⟨hop, hfn, rfl⟩ | ⟨f, hop, rfl⟩
  · exact ⟨rfl, rfl⟩
  · exact ⟨rfl, by rw [encode, ← hfn, encodeR_fields hop]⟩
  · exact ⟨rfl, by rw [encode, ← hfn, encodeR_fields hop]⟩
  · exact ⟨by simp [WellFormed, immFits_toInt], by rw [encode_instr, encodeI_fields hop]⟩

end Sys2Proof

namespace Sys2Proof.Machine

/-! ### The InstructionDecoder on the raw bits (R83) -/

/-- The control record of each I-format row (R77, R78, R79). -/
def iFormCtrl : IForm → ControlSignals
  | .beq | .bne => ctrlBranch
  | .lb | .lw => ctrlLoad
  | .sb | .sw => ctrlStore

theorem decodeOut_instr (f : IForm) (rs rt : RegIdx) (imm : Int) :
    decodeOut (f.instr rs rt imm) = .active (outI (iFormCtrl f) imm) := by cases f <;> rfl

/-- sEOffset of a decoded displacement is the sign extension of its 16 bits (R80). -/
theorem sEOffsetOf_toInt (b : BitVec 16) : sEOffsetOf b.toInt = b.signExtend 32 := by
  rw [sEOffsetOf, imm16, BitVec.ofInt_toInt]

theorem instructionDecoder_zero (pc : Option Word) : instructionDecoder 0 pc = .ok .noOp := rfl

/-- R74, R75: an R-format word has `CTRL_R` and its function code, or is rejected by the code. -/
theorem instructionDecoder_rFormat {w : Word} (hw : w ≠ 0) (h : opcodeOf w = 0) (pc : Option Word) :
    instructionDecoder w pc =
      if functOf w = functAdd ∨ functOf w = functSub then .ok (.active (outR (functOf w)))
      else .error (.unknownFunction (functOf w)) := by
  rw [instructionDecoder, decode_of_rFormat hw h, decodeR]
  by_cases hadd : functOf w = functAdd
  · simp [hadd, decodeOut]
  · by_cases hsub : functOf w = functSub
    · simp [hsub, decodeOut]
    · simp [hadd, hsub, decodeFault]

/-- R76 to R80: a word with a row's opcode has the row's control record and the sign-extended immediate. -/
theorem instructionDecoder_row {w : Word} {f : IForm} (h : opcodeOf w = f.opcode) (pc : Option Word) :
    instructionDecoder w pc = .ok (.active
      { ctrl := iFormCtrl f, function := none, sEOffset := some ((imm16Of w).signExtend 32) }) := by
  have hop : opcodeOf w ≠ 0 := h ▸ opcode_ne_zero f
  rw [instructionDecoder, decode_of_iFormat hop, decodeI, h, ofOpcode_opcode]
  simp only [decodeOut_instr, outI, sEOffsetOf_toInt]

/-- R81: a word whose opcode is neither 0 nor in the table is rejected by the opcode. -/
theorem instructionDecoder_unknownOpcode {w : Word} (h0 : opcodeOf w ≠ 0)
    (h : IForm.ofOpcode (opcodeOf w) = none) (pc : Option Word) :
    instructionDecoder w pc = .error (.decodeError (opcodeOf w)) := by
  rw [instructionDecoder, decode_of_iFormat h0, decodeI, h]
  rfl

/-- Settles O3, by the branches of R83: zero, R-format, each row of the opcode table, any other opcode. -/
theorem decoderComputesItsTable : Obligations.DecoderComputesItsTable := by
  intro w pc
  change instructionDecoder w pc =
    if w = 0 then _
    else if opcodeOf w = 0 then _
    else if opcodeOf w = IForm.lb.opcode ∨ opcodeOf w = IForm.lw.opcode then _
    else if opcodeOf w = IForm.sb.opcode ∨ opcodeOf w = IForm.sw.opcode then _
    else if opcodeOf w = IForm.beq.opcode ∨ opcodeOf w = IForm.bne.opcode then _
    else _
  by_cases hw : w = 0
  · rw [if_pos hw, hw, instructionDecoder_zero]
  rw [if_neg hw]
  by_cases h0 : opcodeOf w = 0
  · rw [if_pos h0, instructionDecoder_rFormat hw h0]
    rfl
  cases hf : IForm.ofOpcode (opcodeOf w) with
  | none =>
    have hne : ∀ f : IForm, opcodeOf w ≠ f.opcode := fun f h => by simp [h] at hf
    rw [instructionDecoder_unknownOpcode h0 hf, if_neg h0,
      if_neg (not_or.2 ⟨hne .lb, hne .lw⟩), if_neg (not_or.2 ⟨hne .sb, hne .sw⟩),
      if_neg (not_or.2 ⟨hne .beq, hne .bne⟩)]
    rfl
  | some f =>
    have hop : opcodeOf w = f.opcode := (ofOpcode_eq_some_iff.1 hf).symm
    rw [instructionDecoder_row hop, hop]
    cases f <;> rfl

/-- Settles O4, word by word. -/
theorem writtenWordsDecode : Obligations.WrittenWordsDecode := by
  unfold Obligations.WrittenWordsDecode
  decide

/-- Settles O5: sign extension keeps the reading of the 16-bit field, and the field the displacement's. -/
theorem signExtensionKeepsTheDisplacement : Obligations.SignExtensionKeepsTheDisplacement := by
  intro imm hl hu
  calc (sEOffsetOf imm).toInt
      = (imm16 imm).toInt := BitVec.toInt_signExtend_of_le (by decide)
    _ = imm := toInt_ofInt_of_immFits (immFits_iff.2 ⟨hl, hu⟩)

/-! ### Host input (R70) -/

/-- Settles O6, by the two sides of `hostWord`'s bound. -/
theorem hostInputKeepsItsValueOrIsRefused : Obligations.HostInputKeepsItsValueOrIsRefused := by
  intro v
  constructor
  · intro h
    exact ⟨_, if_pos h, Nat.mod_eq_of_lt h⟩
  · intro h
    exact if_neg (Nat.not_lt.2 h)

/-! ### What makes no difference (R82, R84, R171) -/

/-- Two instructions for which ID writes the same mean the same. -/
theorem exec_congr_idOutput {i j : Instr} {s : State} (h : idOutput i s = idOutput j s) :
    exec i s = exec j s := by
  rw [exec_eq_runCycle, exec_eq_runCycle, h]

/-- Settles O44: what ID writes for `add` and `sub` has no shamt in it. -/
theorem shamtIsIgnored : Obligations.ShamtIsIgnored :=
  fun _ _ _ _ _ _ => ⟨exec_congr_idOutput rfl, exec_congr_idOutput rfl⟩

/-- Settles O45: ID writes the same for the two instructions of each pair. -/
theorem twinMnemonicsBehaveAlike : Obligations.TwinMnemonicsBehaveAlike :=
  fun _ _ _ _ => ⟨exec_congr_idOutput rfl, exec_congr_idOutput rfl, exec_congr_idOutput rfl⟩

end Sys2Proof.Machine

/-! SUPPORT. The statements of 40_pipeline.md: the instruction a step runs, what ID leaves of it, what the
other stages leave in a committed cycle, the commit with its record, and the consistency faults. -/

namespace Sys2Proof.Machine

/-! ### The consistency faults (R110, R118, R123, R204) -/

/-- A fault of the stages behind ID is taken, whatever instruction is in ID: nothing else changes (R205). -/
theorem exec_takes_fault {s : State} {f : FaultRecord} (i : Instr) (h : olderStages s = .error f) :
    ∃ inputs, exec i s = .next { s with halted := true, fault := some f, inputs := inputs } :=
  ⟨s.inputs.tail, by rw [exec_eq_runCycle, runCycle, h]; rfl⟩

/-- WB has no value to write, or no register to write it to (R118). -/
theorem wbStage_inconsistent {s : State} {b : MemWbSignals} (hb : s.memwb.read.ctrl = .active b)
    (hw : b.regWrite = true)
    (h : b.memToReg = none ∨ s.memwb.read.writeRegNum = none ∨
      (b.memToReg = some true ∧ s.memwb.read.lWDataValue = none)) :
    wbStage s = .error (.inconsistentControl .wb) := by
  rw [wbStage_write hb hw]
  rcases h with ht | hn | ⟨ht, hv⟩
  · simp [wbValue, ht]
  · simp [hn]
  · simp [wbValue, ht, hv]

/-- Settles O17: EX and MEM complete, so WB's fault is the first. -/
theorem inconsistentControlHaltsInWB : Obligations.InconsistentControlHaltsInWB := by
  intro i s b hex hmem hb hw h
  exact exec_takes_fault i (olderStages_error_iff.2
    (.inr ⟨exStage_ok_of_ready hex, .inr ⟨memStage_ok_of_ready hmem, wbStage_inconsistent hb hw h⟩⟩))

/-- The ALU has no function to compute, or no offset to add (R110). -/
theorem alu_inconsistent {c : ControlSignals} {d : IDEX}
    (h : (c.aluOp = .byFunction ∧ d.function ≠ some functAdd ∧ d.function ≠ some functSub) ∨
      (c.aluOp = .effectiveAddress ∧ d.sEOffset = none)) :
    alu c d = .error (.inconsistentControl .ex) := by
  rcases h with ⟨ho, hadd, hsub⟩ | ⟨ho, hoff⟩
  · simp [alu, ho, hadd, hsub]
  · simp [alu, ho, hoff]

/-- Settles O18: EX is the first of the stages behind ID. -/
theorem inconsistentControlHaltsInEX : Obligations.InconsistentControlHaltsInEX := by
  intro i s c hc h
  have hex : exStage s = .error (.inconsistentControl .ex) := by
    rw [exStage_active hc, alu_inconsistent h]
  exact exec_takes_fault i (olderStages_error_iff.2 (.inl hex))

/-- What ID writes for a decoded word is what EX needs. -/
theorem exReady_of_decoded {s : State} (h : s.idex.read.Decoded) : s.exReady := by
  intro c hc
  rcases h with hn | ⟨hr, hf, _⟩ | ⟨hi, _, off, hoff, _⟩
  · cases hc.symm.trans hn
  · cases hc.symm.trans hr
    exact .inl ⟨rfl, hf⟩
  · have hop : c.aluOp = .effectiveAddress := by
      rcases hi with hl | hs | hb
      · cases hc.symm.trans hl; rfl
      · cases hc.symm.trans hs; rfl
      · cases hc.symm.trans hb; rfl
    exact .inr ⟨hop, off, hoff⟩

/-- What MEM writes for a decoded word is what WB needs. -/
theorem wbReady_of_accessed {s : State} (h : s.memwb.read.Accessed) : s.wbReady := by
  intro b hb hw
  rcases h with hn | ⟨hr, _, hreg⟩ | ⟨hl, ⟨v, hv⟩, hreg⟩ | ⟨hs, _, _⟩
  · cases hb.symm.trans hn
  · cases hb.symm.trans hr
    exact ⟨hreg, .inl rfl⟩
  · cases hb.symm.trans hl
    exact ⟨hreg, .inr ⟨rfl, _, hv⟩⟩
  · cases hb.symm.trans hs
    cases hw

/-- With EX and WB ready, the only fault behind ID is MEM's address fault (R203). -/
theorem olderStages_error_of_ready {s : State} {f : FaultRecord} (hex : s.exReady) (hwb : s.wbReady)
    (h : olderStages s = .error f) : f = .memoryAddressError s.exmem.read.aluResult := by
  obtain ⟨e, he⟩ := exStage_ok_of_ready hex
  obtain ⟨x, hx⟩ := wbStage_ok_of_ready hwb
  rcases olderStages_error_iff.1 h with h | ⟨_, h | ⟨_, h⟩⟩
  · cases he.symm.trans h
  · exact memStage_error h
  · cases hx.symm.trans h

theorem decodeFault_ne_inconsistentControl (r : DecodeReject) (stage : FaultStage) :
    decodeFault r ≠ .inconsistentControl stage := by
  cases r with
  | unknownOpcode op => exact nofun
  | unknownFunction fn => exact nofun

/-- Settles O21: a running core has no fault recorded, ID's faults are other ones, and the invariant leaves
only MEM's behind ID. -/
theorem decodedWordsAreNeverInconsistent : Obligations.DecodedWordsAreNeverInconsistent := by
  intro s t hs hh h stage
  have hnone : s.fault = none := by simpa [hh] using hs.haltedIffFault
  rcases step_cases h with ⟨_, rfl⟩ | ⟨_, hh', _⟩ | ⟨_, _, ⟨r, _, rfl⟩ | ⟨i, _, he⟩⟩
  · simp
  · simp [hh] at hh'
  · simpa using decodeFault_ne_inconsistentControl r stage
  · rcases exec_cases he with ⟨w, _, rfl⟩ | ⟨f, hf, rfl⟩
    · simp [hnone]
    · have haddr := olderStages_error_of_ready (exReady_of_decoded hs.idexDecoded)
        (wbReady_of_accessed hs.memwbAccessed) hf
      simp [haddr]

/-! ### The instruction a step runs (R100, R101, R120) -/

/-- At an edge that performs a cycle, the step is the meaning of the word in ID. -/
theorem step_eq_exec {s : State} {i : Instr} (hk : s.edgeKind = .cycle)
    (hd : decode s.wordInID = .ok i) : step s = exec i s := by
  simp [step, hk, hd]

/-- Settles O9: with `rst` low and the core running, the edge is a cycle. -/
theorem stepRunsTheInstructionInID : Obligations.StepRunsTheInstructionInID :=
  fun _ _ hr hh hd => step_eq_exec (edgeKind_cycle hr hh) hd

/-- The word a table number stands for decodes to the instruction the table reads. -/
theorem decode_of_decodeTableWord {w : Nat} {i : Instr} (h : decodeTableWord 32 w = some i) :
    decode (BitVec.ofNat 32 (w % 2 ^ 32)) = .ok i := by
  have hw : hostWord (w % 2 ^ 32) = some (BitVec.ofNat 32 (w % 2 ^ 32)) :=
    if_pos (Nat.mod_lt _ (by decide))
  rw [decodeTableWord, hw] at h
  cases hd : decode (BitVec.ofNat 32 (w % 2 ^ 32)) with
  | ok j => simp only [hd] at h; exact congrArg Except.ok (Option.some.inj h)
  | error r => simp only [hd] at h; cases h

/-- Settles O10: the edge after a placement is a cycle with the placed word in ID. -/
theorem placedWordIsRunByTheNextStep : Obligations.PlacedWordIsRunByTheNextStep :=
  fun s _ _ h => step_eq_exec (placeInID_edgeKind s _) (decode_of_decodeTableWord h)

/-! ### What ID leaves (R106, R107) -/

/-- A cycle that nothing behind ID faults in commits and leaves ID's output in ID/EX. -/
theorem exec_completes {s : State} (i : Instr) (hh : s.halted = false) (hc : s.CanCommit) :
    ∃ t, exec i s = .next t ∧ t.halted = false ∧ t.idex.read = idOutput i s := by
  obtain ⟨w, hw⟩ := olderStages_ok_of_canCommit hc
  exact ⟨endCycle (stagesRun (idOutput i s) w s), by rw [exec_eq_runCycle, runCycle, hw], hh, rfl⟩

/-- ID copies IF/ID's incrPC where there is one (R107). -/
theorem incrPCInID_of_some {s : State} {p : Word} (h : s.ifid.read.incrPC = some p) :
    s.incrPCInID = p := by
  simp [State.incrPCInID, h]

/-- The completion of every instruction but `nop`: a record in ID/EX with the copied incrPC. -/
theorem exec_completes_record {s : State} {i : Instr} {d : DecodeOut} {rs rt bits : RegIdx}
    (hh : s.halted = false) (hc : s.CanCommit) (hid : idOutput i s = idStage d rs rt bits s) :
    ∃ t pc, exec i s = .next t ∧ t.halted = false ∧
      t.idex.read = { idStage d rs rt bits s with incrPC := pc } ∧
      ∀ p, s.ifid.read.incrPC = some p → pc = p := by
  obtain ⟨t, he, ht, hout⟩ := exec_completes i hh hc
  exact ⟨t, s.incrPCInID, he, ht, hout.trans hid, fun _ hp => incrPCInID_of_some hp⟩

/-- Every row of the I-format table has ID write its record, its displacement and its raw fields. -/
theorem idOutput_instr (f : IForm) (rs rt : RegIdx) (imm : Int) (s : State) :
    idOutput (f.instr rs rt imm) s =
      idStage (outI (iFormCtrl f) imm) rs rt (immBits_15_11 imm) s := by
  cases f <;> rfl

/-- Settles O22: ID writes `CTRL_R` and the function code. -/
theorem arithmeticInIDCompletes : Obligations.ArithmeticInIDCompletes :=
  fun _ _ _ _ _ hh hc =>
    ⟨exec_completes_record (d := outR functAdd) hh hc rfl,
      exec_completes_record (d := outR functSub) hh hc rfl⟩

/-- Settles O23: ID writes `CTRL_LOAD` and the displacement. -/
theorem loadsInIDComplete : Obligations.LoadsInIDComplete :=
  fun _ _ _ _ hh hc =>
    ⟨exec_completes_record hh hc (idOutput_instr .lb _ _ _ _),
      exec_completes_record hh hc (idOutput_instr .lw _ _ _ _)⟩

/-- Settles O24: ID writes `CTRL_STORE` and the displacement. -/
theorem storesInIDComplete : Obligations.StoresInIDComplete :=
  fun _ _ _ _ hh hc =>
    ⟨exec_completes_record hh hc (idOutput_instr .sb _ _ _ _),
      exec_completes_record hh hc (idOutput_instr .sw _ _ _ _)⟩

/-- Settles O25: ID writes `CTRL_BRANCH` and the displacement. -/
theorem branchesInIDComplete : Obligations.BranchesInIDComplete :=
  fun _ _ _ _ hh hc =>
    ⟨exec_completes_record hh hc (idOutput_instr .beq _ _ _ _),
      exec_completes_record hh hc (idOutput_instr .bne _ _ _ _)⟩

/-- Settles O26: for the zero word ID writes the sentinel only. -/
theorem nopInIDCompletes : Obligations.NopInIDCompletes :=
  fun _ hh hc => exec_completes .nop hh hc

/-- Bits [15:11] of a decoded displacement are the word's (R82). -/
theorem immBits_of_word (w : Word) : immBits_15_11 (imm16Of w).toInt = rdOf w := by
  rw [immBits_15_11, imm16, BitVec.ofInt_toInt, imm16Of, rdOf]
  exact BitVec.extractLsb'_extractLsb'_of_le (by decide)

/-- For a non-zero word ID writes the decoder's output and the raw fields of the word (R82, R107). -/
theorem idOutput_of_decode {w : Word} {i : Instr} (hd : decode w = .ok i) (hw : w ≠ 0) (s : State) :
    ∃ d, decodeOut i = .active d ∧ idOutput i s = idStage d (rsOf w) (rtOf w) (rdOf w) s := by
  rcases decode_ok_cases hd with ⟨rfl, _⟩ | ⟨_, _, rfl⟩ | ⟨_, _, rfl⟩ | ⟨f, _, rfl⟩
  · exact absurd rfl hw
  · exact ⟨_, rfl, rfl⟩
  · exact ⟨_, rfl, rfl⟩
  · exact ⟨_, decodeOut_instr f _ _ _, by rw [idOutput_instr, immBits_of_word]⟩

/-- Settles O27: the committed cycle is that of the instruction the word decodes to. -/
theorem idWritesTheWordsFields : Obligations.IDWritesTheWordsFields := by
  intro s t hr _ h ht w hw
  obtain ⟨i, work, hd, _, rfl⟩ := step_committed hr h ht
  obtain ⟨d, hout, hid⟩ := idOutput_of_decode hd hw s
  refine ⟨d, s.incrPCInID, ?_, fun _ hp => incrPCInID_of_some hp, hid⟩
  have hdw : decode w = .ok i := hd
  rw [instructionDecoder, hdw, ← hout]

/-! ### What IF leaves (R105) -/

/-- Settles O35: a committed cycle leaves IF's output in IF/ID. -/
theorem fetchIsAlwaysSequential : Obligations.FetchIsAlwaysSequential := by
  intro i s t _ h ht
  obtain ⟨w, _, rfl⟩ := exec_committed h ht
  refine ⟨rfl, fun p hp => ?_, fun hp => ?_⟩
  · simp [ifStage, hp]
  · simp [ifStage, hp]

/-! ### What EX leaves (R108 to R111) -/

/-- The ALU's answer is the sum, the difference or the address that the record asks for (R110). -/
theorem alu_ok {c : ControlSignals} {d : IDEX} {r : Word} (h : alu c d = .ok r) :
    (c.aluOp = .byFunction → d.function = some functAdd → r = d.readReg1Value + d.readReg2Value) ∧
    (c.aluOp = .byFunction → d.function = some functSub → r = d.readReg1Value - d.readReg2Value) ∧
    (∀ off, c.aluOp = .effectiveAddress → d.sEOffset = some off → r = d.readReg1Value + off) := by
  refine ⟨fun ho hf => ?_, fun ho hf => ?_, fun off ho hf => ?_⟩
  · simpa [alu, ho, hf] using h.symm
  · simpa [alu, ho, hf] using h.symm
  · simpa [alu, ho, hf] using h.symm

/-- The destination is the raw field that `regDest` names, or none (R109). -/
theorem destSelect_spec (c : ControlSignals) (d : IDEX) :
    (c.regDest = some false → destSelect c d = some d.writeReg_20_16) ∧
    (c.regDest = some true → destSelect c d = some d.writeReg_15_11) ∧
    (c.regDest = none → destSelect c d = none) := by
  refine ⟨fun h => ?_, fun h => ?_, fun h => ?_⟩
  · simp [destSelect, h]
  · simp [destSelect, h]
  · simp [destSelect, h]

/-- Settles O36, by the two kinds of word in EX. -/
theorem exWritesItsOutputs : Obligations.EXWritesItsOutputs := by
  intro i s t _ h ht
  have hex := (exec_commits h ht).ex
  refine ⟨fun hn => ?_, fun c hc => ?_⟩
  · exact Except.ok.inj (hex.symm.trans (exStage_noOp hn))
  · obtain ⟨r, hr, he⟩ := exStage_ok_active hc hex
    obtain ⟨hsum, hdiff, haddr⟩ := alu_ok hr
    obtain ⟨hrt, hrd, hna⟩ := destSelect_spec c s.idex.read
    rw [he]
    exact ⟨rfl, hrt, hrd, hna, hsum, hdiff, haddr, rfl, rfl, rfl, rfl⟩

/-! ### What MEM leaves (R112 to R115) -/

/-- Settles O37, by the two kinds of word in MEM. -/
theorem memWritesItsOutputs : Obligations.MEMWritesItsOutputs := by
  intro i s t _ h ht hwf
  have hcommits := exec_commits h ht
  refine ⟨fun hn => ?_, fun m hm => ?_⟩
  · exact Prod.ext_iff.1 (Except.ok.inj (hcommits.mem.symm.trans (memStage_noOp hn)))
  · obtain ⟨_, hr, hmem⟩ := memStage_ok_active hm hcommits.mem
    rw [hr]
    refine ⟨rfl, rfl, rfl, fun hl => if_pos hl, fun hl => ?_, fun hw => ?_, fun hw => ?_⟩
    · simp [hl]
    · rw [if_pos hw] at hmem
      simp only [State.readByte, hcommits.params, hmem]
      exact ⟨Memory.read_write_same hwf, fun _ ha => Memory.read_write_other ha⟩
    · simpa [hw] using hmem

/-! ### What WB leaves (R116, R117) -/

/-- WB with a value and a register to write it to. -/
theorem wbStage_value {s : State} {b : MemWbSignals} {n : RegIdx} {v : Word}
    (hb : s.memwb.read.ctrl = .active b) (hw : b.regWrite = true)
    (hn : s.memwb.read.writeRegNum = some n) (hv : wbValue b s.memwb.read = .ok v) :
    wbStage s = .ok (s.x.write n v) := by
  rw [wbStage_write hb hw, hn, hv]

/-- Settles O38, by what the word in WB asks for. -/
theorem wbWritesTheSelectedValue : Obligations.WBWritesTheSelectedValue := by
  intro i s t _ h ht
  have hx : ∀ {x : RegFile}, wbStage s = .ok x → t.x = x :=
    fun hs => Except.ok.inj ((exec_commits h ht).wb.symm.trans hs)
  refine ⟨fun hn => hx (wbStage_noOp hn), fun b hb => ⟨fun hw => hx (wbStage_idle hb hw), ?_, ?_⟩⟩
  · intro n v hw hsel hn hv
    exact hx (wbStage_value hb hw hn (by simp [wbValue, hsel, hv]))
  · intro n hw hsel hn
    exact hx (wbStage_value hb hw hn (by simp [wbValue, hsel]))

/-! ### The commit and the cycle record (R104, R119) -/

/-- Settles O39: a commit leaves the write sides, which are all that it reads. -/
theorem commitIsIdempotent : Obligations.CommitIsIdempotent := fun _ => rfl

/-- Settles O40: the record is taken of the stages' results, before the commit. -/
theorem committedCycleEmitsItsRecord : Obligations.CommittedCycleEmitsItsRecord := by
  intro i s t hh h
  rcases exec_cases h with ⟨w, _, rfl⟩ | ⟨f, _, rfl⟩
  · exact ⟨fun _ => ⟨rfl, rfl⟩, fun ht => by simp [hh] at ht⟩
  · exact ⟨fun ht => by simp at ht, fun _ => rfl⟩

end Sys2Proof.Machine


/-! SUPPORT. The statements of 41_alu.md: an instruction alone in the pipeline, from its ID cycle to its WB
cycle, and the effect of every row of the opcode table. -/

namespace Sys2Proof.Machine

/-! ### Runs of edges (R121) -/

theorem runEdges_succ {n : Nat} {s t : State} (h : step s = .next t) :
    runEdges (n + 1) s = runEdges n t := by
  simp [runEdges, h]

/-- Every edge has a next state: no edge refuses and none faults outside the spec's own states. -/
theorem step_answers (s : State) : ∃ t, step s = .next t := by
  unfold step
  split
  · exact ⟨_, rfl⟩
  · exact ⟨_, rfl⟩
  · split
    · exact ⟨_, exec_eq_runCycle _ _⟩
    · exact ⟨_, rfl⟩

theorem runEdges_answers (n : Nat) (s : State) : ∃ t, runEdges n s = .next t := by
  induction n generalizing s with
  | zero => exact ⟨s, rfl⟩
  | succ n ih =>
    obtain ⟨t, ht⟩ := step_answers s
    rw [runEdges_succ ht]
    exact ih t

/-! ### What a committed cycle leaves alone (R112, R116, R117) -/

section
variable {k : Instr} {s t : State}

theorem State.Commits.memwb_of_noOp (c : State.Commits k s t) (h : s.exmem.read.ctrl = .noOp) :
    t.memwb.read.ctrl = .noOp ∧ t.mem = s.mem := by
  have hm := c.mem
  rw [memStage_noOp h] at hm
  obtain ⟨hwb, hmem⟩ := Prod.mk.inj (Except.ok.inj hm)
  exact ⟨by rw [← hwb], hmem.symm⟩

theorem State.Commits.exmem_of_noOp (c : State.Commits k s t) (h : s.idex.read.ctrl = .noOp) :
    t.exmem.read.ctrl = .noOp := by
  have he := c.ex
  rw [exStage_noOp h] at he
  rw [← Except.ok.inj he]

theorem State.Commits.x_of_noOp (c : State.Commits k s t) (h : s.memwb.read.ctrl = .noOp) :
    t.x = s.x :=
  Except.ok.inj (c.wb.symm.trans (wbStage_noOp h))

/-- A record that does not store leaves MainMemory, and passes MEM with its register and address. -/
theorem State.Commits.memwb_of_noStore {m : ExMemSignals} (c : State.Commits k s t)
    (h : s.exmem.read.ctrl = .active m) (hw : m.memWrite = false) :
    t.mem = s.mem ∧ t.memwb.read.ctrl = .active m.passMEM ∧
      t.memwb.read.aluResult = s.exmem.read.aluResult ∧
      t.memwb.read.writeRegNum = s.exmem.read.writeRegNum := by
  obtain ⟨_, hwb, hmem⟩ := memStage_ok_active h c.mem
  rw [hwb]
  exact ⟨by simpa [hw] using hmem, rfl, rfl, rfl⟩

/-- A record without `regWrite` in MEM leaves the RegisterFile at the edge after. -/
theorem State.Commits.x_of_noRegWrite {k' : Instr} {u : State} {m : ExMemSignals}
    (c : State.Commits k s t) (c' : State.Commits k' t u) (h : s.exmem.read.ctrl = .active m)
    (hw : m.regWrite = false) : u.x = t.x := by
  obtain ⟨_, hwb, _⟩ := memStage_ok_active h c.mem
  have hidle : wbStage t = .ok t.x := wbStage_idle (b := m.passMEM) (by rw [hwb]) hw
  exact Except.ok.inj (c'.wb.symm.trans hidle)

/-- A word that accesses no memory raises nothing in MEM (R203). -/
theorem memReady_of_noAccess {m : ExMemSignals} (h : s.exmem.read.ctrl = .active m)
    (hr : m.memRead = false) (hw : m.memWrite = false) : s.memReady := by
  intro m' hm' ha
  cases hm'.symm.trans h
  simp [hr, hw] at ha

theorem memReady_of_noOp (h : s.exmem.read.ctrl = .noOp) : s.memReady := by
  intro m hm
  cases hm.symm.trans h

theorem memReady_of_valid (h : s.exmem.read.aluResult.toNat < s.params.memSize) : s.memReady :=
  fun _ _ _ => h

theorem exReady_of_noOp (h : s.idex.read.ctrl = .noOp) : s.exReady := by
  intro c hc
  cases hc.symm.trans h

theorem wbReady_of_noOp (h : s.memwb.read.ctrl = .noOp) : s.wbReady := by
  intro b hb
  cases hb.symm.trans h

theorem State.Drained.canCommit (h : s.Drained) : s.CanCommit :=
  ⟨exReady_of_noOp h.idex, memReady_of_noOp h.exmem, wbReady_of_noOp h.memwb⟩

end

/-! ### The edges behind a word that is alone (R180, R240) -/

/-- The core runs with the zero word in ID and `n` zero words to come. -/
structure State.Trailing (n : Nat) (s : State) : Prop where
  running : s.halted = false
  word    : s.wordInID = 0
  zeros   : s.zeroWords n

/-- Zero words at the next edges are one at this edge and those at the edges after it. -/
theorem zeroWords_succ {s : State} {n : Nat} (h : s.zeroWords (n + 1)) :
    s.portIn = { rst := false, instrIn := 0 } ∧
    ∀ t : State, t.inputs = s.inputs.tail → t.zeroWords n := by
  cases hi : s.inputs with
  | nil => exact ⟨by simp [State.portIn, hi], fun t ht => by simp [State.zeroWords, ht]⟩
  | cons p ps =>
    have hall : ∀ q ∈ p :: ps.take n, q = { rst := false, instrIn := 0 } := by
      simpa [State.zeroWords, hi] using h
    refine ⟨by simpa [State.portIn, hi] using hall p List.mem_cons_self, fun t ht q hq => ?_⟩
    rw [ht, List.tail_cons] at hq
    exact hall q (List.mem_cons_of_mem _ hq)

/-- A cycle that nothing behind ID faults in commits, and takes the zero word from the port into ID. -/
theorem exec_trailing {s : State} {n : Nat} (i : Instr) (hh : s.halted = false)
    (hz : s.zeroWords (n + 1)) (hc : s.CanCommit) :
    ∃ t, exec i s = .next t ∧ State.Commits i s t ∧ t.Trailing n := by
  obtain ⟨w, hw⟩ := olderStages_ok_of_canCommit hc
  obtain ⟨hport, hrest⟩ := zeroWords_succ hz
  refine ⟨endCycle (stagesRun (idOutput i s) w s), by rw [exec_eq_runCycle, runCycle, hw],
    endCycle_commits i hw, hh, ?_, hrest _ rfl⟩
  simp [State.wordInID, ifStage, hport]

section
variable {s : State} {n : Nat}

theorem State.Trailing.step_eq_exec (h : s.Trailing (n + 1)) : step s = exec .nop s := by
  have hrst : s.portIn.rst = false := by rw [(zeroWords_succ h.zeros).1]
  refine Machine.step_eq_exec (edgeKind_cycle hrst h.running) ?_
  rw [h.word]
  rfl

theorem State.Trailing.step_commits (h : s.Trailing (n + 1)) (hc : s.CanCommit) :
    ∃ t, step s = .next t ∧ State.Commits .nop s t ∧ t.Trailing n := by
  rw [h.step_eq_exec]
  exact exec_trailing .nop h.running h.zeros hc

/-- MEM's fault halts the core, which idles at the edge after it (R205, R207). -/
theorem State.Trailing.faults {f : FaultRecord} (h : s.Trailing (n + 2)) (hex : s.exReady)
    (hm : memStage s = .error f) :
    ∃ u, runEdges 2 s = .next u ∧ u.halted = true ∧ u.fault = some f ∧ u.x = s.x ∧ u.mem = s.mem := by
  have hold : olderStages s = .error f :=
    olderStages_error_iff.2 (.inr ⟨exStage_ok_of_ready hex, .inl hm⟩)
  have hfault : step s = .next (raiseFault f s) := by
    rw [h.step_eq_exec, exec_eq_runCycle, runCycle, hold]
  have hrst : (raiseFault f s).portIn.rst = false := by
    rw [(zeroWords_succ ((zeroWords_succ h.zeros).2 (raiseFault f s) rfl)).1]
  exact ⟨idleEdge (raiseFault f s),
    by rw [runEdges_succ hfault, runEdges_succ (step_eq_idleEdge hrst rfl)]; rfl, rfl, rfl, rfl, rfl⟩

end

/-! ### An instruction alone, stage by stage (R234) -/

/-- `i`, alone in ID in `s`, has committed its ID cycle into `s1` and its EX cycle into `s2`, where it is in
MEM with no-ops round it; the RegisterFile and MainMemory are those of `s`. -/
structure State.AloneInMEM (i : Instr) (s s1 s2 : State) : Prop where
  id       : State.Commits i s s1
  ex       : State.Commits .nop s1 s2
  trailing : s2.Trailing 2
  wb       : s2.memwb.read.ctrl = .noOp
  x        : s2.x = s.x
  mem      : s2.mem = s.mem

theorem alone_reaches_MEM {s : State} (i : Instr) (h : s.Alone) :
    ∃ s1 s2, exec i s = .next s1 ∧ step s1 = .next s2 ∧ State.AloneInMEM i s s1 s2 := by
  obtain ⟨s1, e1, c1, t1⟩ := exec_trailing i h.running h.zeros h.drained.canCommit
  have hex1 := c1.exmem_of_noOp h.drained.idex
  obtain ⟨hwb1, hmem1⟩ := c1.memwb_of_noOp h.drained.exmem
  have hx1 := c1.x_of_noOp h.drained.memwb
  have hready : s1.CanCommit :=
    ⟨exReady_of_decoded (c1.id ▸ idOutput_decoded i s), memReady_of_noOp hex1, wbReady_of_noOp hwb1⟩
  obtain ⟨s2, e2, c2, t2⟩ := t1.step_commits hready
  obtain ⟨hwb2, hmem2⟩ := c2.memwb_of_noOp hex1
  exact ⟨s1, s2, e1, e2, c1, c2, t2, hwb2, (c2.x_of_noOp hwb1).trans hx1, hmem2.trans hmem1⟩

section
variable {i : Instr} {s s1 s2 : State}

theorem State.AloneInMEM.params (h : State.AloneInMEM i s s1 s2) : s2.params = s.params :=
  h.ex.params.trans h.id.params

theorem State.AloneInMEM.readByte (h : State.AloneInMEM i s s1 s2) (a : Nat) :
    s2.readByte a = s.readByte a := by
  rw [State.readByte, h.params, h.mem, State.readByte]

theorem State.AloneInMEM.idex (h : State.AloneInMEM i s s1 s2) : s2.idex.read.ctrl = .noOp := by
  rw [h.ex.id]
  rfl

/-- Where MEM raises nothing, the MEM and WB cycles of the word commit; only the first can change MainMemory
and only the second the RegisterFile. -/
theorem State.AloneInMEM.completes (h : State.AloneInMEM i s s1 s2) (hm : s2.memReady) :
    ∃ s3 s4, runEdges 2 s2 = .next s4 ∧ s4.halted = false ∧ State.Commits .nop s2 s3 ∧
      State.Commits .nop s3 s4 ∧ s3.x = s.x ∧ s4.mem = s3.mem := by
  have hdec : s1.idex.read.Decoded := h.id.id ▸ idOutput_decoded i s
  obtain ⟨s3, e3, c3, t3⟩ :=
    h.trailing.step_commits ⟨exReady_of_noOp h.idex, hm, wbReady_of_noOp h.wb⟩
  have hex3 := c3.exmem_of_noOp h.idex
  have hacc : s3.memwb.read.Accessed := memStage_accessed (exStage_executed hdec h.ex.ex) c3.mem
  have hid3 : s3.idex.read.ctrl = .noOp := by rw [c3.id]; rfl
  obtain ⟨s4, e4, c4, t4⟩ := t3.step_commits
    ⟨exReady_of_noOp hid3, memReady_of_noOp hex3, wbReady_of_accessed hacc⟩
  exact ⟨s3, s4, by rw [runEdges_succ e3, runEdges_succ e4]; rfl, t4.running, c3, c4,
    (c3.x_of_noOp h.wb).trans h.x, (c4.memwb_of_noOp hex3).2⟩

/-- An access at an invalid address halts the core in the word's MEM cycle (R203). -/
theorem State.AloneInMEM.faults {m : ExMemSignals} (h : State.AloneInMEM i s s1 s2)
    (hc : s2.exmem.read.ctrl = .active m) (ha : m.memRead = true ∨ m.memWrite = true)
    (hv : s.params.memSize ≤ s2.exmem.read.aluResult.toNat) :
    ∃ u, runEdges 2 s2 = .next u ∧ u.halted = true ∧
      u.fault = some (.memoryAddressError s2.exmem.read.aluResult) ∧ u.x = s.x ∧ u.mem = s.mem := by
  have hm : memStage s2 = .error (.memoryAddressError s2.exmem.read.aluResult) := by
    rw [memStage_active hc, if_pos ⟨ha, by rw [h.params]; omega⟩]
  obtain ⟨u, hu, hh, hf, hx, hmem⟩ := h.trailing.faults (exReady_of_noOp h.idex) hm
  exact ⟨u, hu, hh, hf, hx.trans h.x, hmem.trans h.mem⟩

end

/-! ### R-format arithmetic (R140, R141) -/

/-- `add` or `sub` has the ALU's answer to its ID cycle's operands in `x[rd]` after the fourth edge, whatever
else is in flight, and stores nothing. -/
theorem arithmetic_in_flight {i k k' k'' : Instr} {fn : Funct} {rd rs rt : RegIdx} {v : Word}
    {s s1 s2 s3 s4 : State} (hi : idOutput i s = idStage (outR fn) rs rt rd s)
    (hv : alu ctrlR (idStage (outR fn) rs rt rd s) = .ok v) (h1 : State.Commits i s s1)
    (h2 : State.Commits k s1 s2) (h3 : State.Commits k' s2 s3) (h4 : State.Commits k'' s3 s4) :
    s3.mem = s2.mem ∧ s4.x = s3.x.write rd v := by
  have hid := h1.id.trans hi
  obtain ⟨r, hr, hex⟩ := exStage_ok_active (c := ctrlR) (by rw [hid]; rfl) h2.ex
  obtain rfl : v = r := by
    rw [hid, hv] at hr
    exact Except.ok.inj hr
  obtain ⟨hmem, hctrl, halu, hreg⟩ := h3.memwb_of_noStore (m := ctrlR.passEX) (by rw [hex]) rfl
  have hwb : wbStage s3 = .ok (s3.x.write rd v) := by
    apply wbStage_value hctrl rfl
    · rw [hreg, hex, hid]; rfl
    · rw [← show s3.memwb.read.aluResult = v by rw [halu, hex]]; rfl
  exact ⟨hmem, Except.ok.inj (h4.wb.symm.trans hwb)⟩

/-- The whole effect of `add` or `sub` alone. -/
theorem arithmetic_alone {i : Instr} {fn : Funct} {rd rs rt : RegIdx} {v : Word} {s : State}
    (h : s.Alone) (hi : idOutput i s = idStage (outR fn) rs rt rd s)
    (hv : alu ctrlR (idStage (outR fn) rs rt rd s) = .ok v) :
    ∃ t u, exec i s = .next t ∧ runEdges 3 t = .next u ∧ u.halted = false ∧
      u.x = s.x.write rd v ∧ u.mem = s.mem := by
  obtain ⟨s1, s2, e1, e2, hmem⟩ := alone_reaches_MEM i h
  obtain ⟨r, _, hex⟩ := exStage_ok_active (c := ctrlR) (by rw [hmem.id.id, hi]; rfl) hmem.ex.ex
  have hready : s2.memReady := memReady_of_noAccess (m := ctrlR.passEX) (by rw [hex]) rfl rfl
  obtain ⟨s3, s4, e4, hh, c3, c4, hx3, hm4⟩ := hmem.completes hready
  obtain ⟨hm3, hx4⟩ := arithmetic_in_flight hi hv hmem.id hmem.ex c3 c4
  exact ⟨s1, s4, e1, (runEdges_succ e2).trans e4, hh, by rw [hx4, hx3],
    hm4.trans (hm3.trans hmem.mem)⟩

/-- Settles O29: the ALU adds on add's function code. -/
theorem addWritesTheSum : Obligations.AddWritesTheSum :=
  fun _ _ _ _ _ h => arithmetic_alone h rfl rfl

/-- Settles O30: the ALU subtracts on sub's function code. -/
theorem subWritesTheDifference : Obligations.SubWritesTheDifference :=
  fun _ _ _ _ _ h => arithmetic_alone h rfl rfl

/-! ### Loads, stores, branches and the no-op, alone (R150 to R153, R170, R171, R180) -/

section
variable {i : Instr} {rt rs : RegIdx} {imm : Int} {s : State}

/-- The whole effect of a load alone, by its address. -/
theorem load_alone (h : s.Alone) (hi : i = .lb rt rs imm ∨ i = .lw rt rs imm) {a : Word}
    (ha : effectiveAddress (s.x.read rs) imm = a) :
    ∃ t u, exec i s = .next t ∧ runEdges 3 t = .next u ∧ u.mem = s.mem ∧
      (a.toNat < s.params.memSize →
        u.halted = false ∧ u.x = s.x.write rt ((s.readByte a.toNat).setWidth 32)) ∧
      (s.params.memSize ≤ a.toNat →
        u.halted = true ∧ u.fault = some (.memoryAddressError a) ∧ u.x = s.x) := by
  subst ha
  obtain ⟨s1, s2, e1, e2, hmem⟩ := alone_reaches_MEM i h
  obtain ⟨hctrl, haddr, _, _⟩ := hmem.ex.exmem_of_outI (hmem.id.id.trans (idOutput_load hi s)) rfl
  by_cases hv : (effectiveAddress (s.x.read rs) imm).toNat < s.params.memSize
  · have hready : s2.memReady := memReady_of_valid (by rwa [haddr, hmem.params])
    obtain ⟨s3, s4, e4, hh, c3, c4, hx3, hm4⟩ := hmem.completes hready
    have hm3 := (c3.memwb_of_noStore hctrl rfl).1
    have hx4 := load_in_flight hi hmem.id hmem.ex c3 c4
    rw [hx3, hmem.readByte] at hx4
    exact ⟨s1, s4, e1, (runEdges_succ e2).trans e4, hm4.trans (hm3.trans hmem.mem),
      fun _ => ⟨hh, hx4⟩, fun hn => absurd hv (Nat.not_lt.2 hn)⟩
  · obtain ⟨u, hu, hh, hf, hx, hm⟩ := hmem.faults hctrl (.inl rfl) (by rw [haddr]; omega)
    exact ⟨s1, u, e1, (runEdges_succ e2).trans hu, hm, fun hn => absurd hn hv,
      fun _ => ⟨hh, haddr ▸ hf, hx⟩⟩

/-- The whole effect of a store alone, by its address. -/
theorem store_alone (h : s.Alone) (hwf : Memory.wf s.params s.mem = true)
    (hi : i = .sb rt rs imm ∨ i = .sw rt rs imm) {a : Word}
    (ha : effectiveAddress (s.x.read rs) imm = a) :
    ∃ t u, exec i s = .next t ∧ runEdges 3 t = .next u ∧ u.x = s.x ∧
      (a.toNat < s.params.memSize →
        u.halted = false ∧ u.readByte a.toNat = (s.x.read rt).extractLsb' 0 8 ∧
        ∀ b : Nat, b ≠ a.toNat → u.readByte b = s.readByte b) ∧
      (s.params.memSize ≤ a.toNat →
        u.halted = true ∧ u.fault = some (.memoryAddressError a) ∧ u.mem = s.mem) := by
  subst ha
  obtain ⟨s1, s2, e1, e2, hmem⟩ := alone_reaches_MEM i h
  obtain ⟨hctrl, haddr, _, _⟩ := hmem.ex.exmem_of_outI (hmem.id.id.trans (idOutput_store hi s)) rfl
  by_cases hv : (effectiveAddress (s.x.read rs) imm).toNat < s.params.memSize
  · have hready : s2.memReady := memReady_of_valid (by rwa [haddr, hmem.params])
    obtain ⟨s3, s4, e4, hh, c3, c4, hx3, hm4⟩ := hmem.completes hready
    have hx4 := c3.x_of_noRegWrite c4 hctrl rfl
    have hm3 := store_in_flight hi hmem.id hmem.ex c3
    have hbyte : ∀ b, s4.readByte b = Memory.read s.params (Memory.write s.params
        (effectiveAddress (s.x.read rs) imm).toNat ((s.x.read rt).extractLsb' 0 8) s.mem) b := by
      intro b
      rw [State.readByte, c4.params, c3.params, hm4, hm3, hmem.params, hmem.mem]
    exact ⟨s1, s4, e1, (runEdges_succ e2).trans e4, hx4.trans hx3,
      fun _ => ⟨hh, (hbyte _).trans (Memory.read_write_same hwf),
        fun b hb => (hbyte b).trans (Memory.read_write_other hb)⟩,
      fun hn => absurd hv (Nat.not_lt.2 hn)⟩
  · obtain ⟨u, hu, hh, hf, hx, hm⟩ := hmem.faults hctrl (.inr rfl) (by rw [haddr]; omega)
    exact ⟨s1, u, e1, (runEdges_succ e2).trans hu, hx, fun hn => absurd hn hv,
      fun _ => ⟨hh, haddr ▸ hf, hm⟩⟩

/-- A branch alone changes nothing and raises nothing. -/
theorem branch_alone (h : s.Alone) (hi : i = .beq rs rt imm ∨ i = .bne rs rt imm) :
    ∃ t u, exec i s = .next t ∧ runEdges 3 t = .next u ∧ u.x = s.x ∧ u.mem = s.mem ∧
      u.halted = false := by
  have hid : idOutput i s = idStage (outI ctrlBranch imm) rs rt (immBits_15_11 imm) s := by
    rcases hi with rfl | rfl
    · rfl
    · rfl
  obtain ⟨s1, s2, e1, e2, hmem⟩ := alone_reaches_MEM i h
  obtain ⟨hctrl, _, _, _⟩ := hmem.ex.exmem_of_outI (hmem.id.id.trans hid) rfl
  obtain ⟨s3, s4, e4, hh, c3, c4, hx3, hm4⟩ := hmem.completes (memReady_of_noAccess hctrl rfl rfl)
  have hm3 := (c3.memwb_of_noStore hctrl rfl).1
  exact ⟨s1, s4, e1, (runEdges_succ e2).trans e4, (c3.x_of_noRegWrite c4 hctrl rfl).trans hx3,
    hm4.trans (hm3.trans hmem.mem), hh⟩

/-- The zero word alone changes nothing and raises nothing. -/
theorem nop_alone (h : s.Alone) :
    ∃ t u, exec .nop s = .next t ∧ runEdges 3 t = .next u ∧ u.x = s.x ∧ u.mem = s.mem ∧
      u.halted = false := by
  obtain ⟨s1, s2, e1, e2, hmem⟩ := alone_reaches_MEM .nop h
  have hctrl : s2.exmem.read.ctrl = .noOp := hmem.ex.exmem_of_noOp (by rw [hmem.id.id]; rfl)
  obtain ⟨s3, s4, e4, hh, c3, c4, hx3, hm4⟩ := hmem.completes (memReady_of_noOp hctrl)
  obtain ⟨hwb3, hm3⟩ := c3.memwb_of_noOp hctrl
  exact ⟨s1, s4, e1, (runEdges_succ e2).trans e4, (c4.x_of_noOp hwb3).trans hx3,
    hm4.trans (hm3.trans hmem.mem), hh⟩

end

/-! ### Match and mask of the opcode table (R74, R76) -/

/-- Where a mask covers the opcode field, its match is the word's opcode. -/
theorem opcodeOf_of_match {w mask pattern : Word} (h : w &&& mask = pattern)
    (hm : opcodeOf mask = BitVec.allOnes 6) : opcodeOf w = opcodeOf pattern := by
  rw [← h, opcodeOf, opcodeOf, BitVec.extractLsb'_and, ← opcodeOf, ← opcodeOf, hm,
    BitVec.and_allOnes]

/-- Where a mask covers the function code field, its match is the word's function code. -/
theorem functOf_of_match {w mask pattern : Word} (h : w &&& mask = pattern)
    (hm : functOf mask = BitVec.allOnes 6) : functOf w = functOf pattern := by
  rw [← h, functOf, functOf, BitVec.extractLsb'_and, ← functOf, ← functOf, hm, BitVec.and_allOnes]

/-- A match of an R-format row: the word is R-format with the row's function code (R72, R74). -/
theorem rFormat_of_match {w pattern : Word} (h : w &&& 0xFC00003F = pattern)
    (hop : opcodeOf pattern = 0) (hfn : functOf pattern ≠ 0) :
    decode w = decodeR w ∧ functOf w = functOf pattern := by
  have hf : functOf w = functOf pattern := functOf_of_match h (by decide)
  have hw : w ≠ 0 := by rintro rfl; exact hfn hf.symm
  exact ⟨decode_of_rFormat hw ((opcodeOf_of_match h (by decide)).trans hop), hf⟩

theorem decode_of_match_add {w : Word} (h : w &&& 0xFC00003F = 0x00000020) :
    decode w = .ok (.add (rdOf w) (rsOf w) (rtOf w) (shamtOf w)) := by
  obtain ⟨hd, hf⟩ := rFormat_of_match h (by decide) (by decide)
  have hadd : functOf w = functAdd := hf.trans rfl
  rw [hd, decodeR, if_pos hadd]

theorem decode_of_match_sub {w : Word} (h : w &&& 0xFC00003F = 0x00000022) :
    decode w = .ok (.sub (rdOf w) (rsOf w) (rtOf w) (shamtOf w)) := by
  obtain ⟨hd, hf⟩ := rFormat_of_match h (by decide) (by decide)
  have hsub : functOf w = functSub := hf.trans rfl
  rw [hd, decodeR, hsub, if_neg functSub_ne_functAdd, if_pos rfl]

theorem decode_of_match_row {w pattern : Word} (f : IForm) (h : w &&& 0xFC000000 = pattern)
    (hf : opcodeOf pattern = f.opcode) :
    decode w = .ok (f.instr (rsOf w) (rtOf w) (imm16Of w).toInt) := by
  have hop : opcodeOf w = f.opcode := (opcodeOf_of_match h (by decide)).trans hf
  rw [decode_of_iFormat (hop ▸ opcode_ne_zero f), decodeI, hop, ofOpcode_opcode]

/-- The effective address of a decoded displacement, on the word's own bits (R80). -/
theorem effectiveAddress_toInt (base : Word) (b : BitVec 16) :
    effectiveAddress base b.toInt = base + b.signExtend 32 := by
  rw [effectiveAddress, sEOffsetOf_toInt]

/-! ### The effect of every row (R140 to R180) -/

/-- A run of steps from a word in ID ends where the word's meaning and the edges after it end. -/
theorem runEdges_of_exec {n : Nat} {s u : State} {i : Instr} {P : State → Prop}
    (hk : s.edgeKind = .cycle) (hd : decode s.wordInID = .ok i) (hu : runEdges (n + 1) s = .next u)
    (h : ∃ t v, exec i s = .next t ∧ runEdges n t = .next v ∧ P v) : P u := by
  obtain ⟨t, v, he, hv, hP⟩ := h
  rw [runEdges_succ ((step_eq_exec hk hd).trans he), hv] at hu
  cases hu
  exact hP

/-- Settles O51: the four edges answer one state, and a matched row is the word's own decoding, whose effect
alone is known. -/
theorem everyTableRowHasItsEffect : Obligations.EveryTableRowHasItsEffect := by
  intro s hs hr hwf w rs rt rd a
  obtain ⟨u, hu⟩ := runEdges_answers 4 s
  have hk := edgeKind_cycle hr hs.running
  have ha : effectiveAddress (s.x.read rs) (imm16Of w).toInt = a := effectiveAddress_toInt _ _
  refine ⟨u, hu, fun h => ?_, fun h => ?_, fun h => ?_, fun h => ?_, fun h => ?_⟩
  · obtain ⟨hh, hx, hm⟩ :=
      runEdges_of_exec hk (decode_of_match_add h) hu (addWritesTheSum rd rs rt _ s hs)
    exact ⟨hx, hm, hh⟩
  · obtain ⟨hh, hx, hm⟩ :=
      runEdges_of_exec hk (decode_of_match_sub h) hu (subWritesTheDifference rd rs rt _ s hs)
    exact ⟨hx, hm, hh⟩
  · have hrow : ∃ i, decode w = .ok i ∧
        (i = .lb rt rs (imm16Of w).toInt ∨ i = .lw rt rs (imm16Of w).toInt) := by
      rcases h with h | h
      · exact ⟨_, decode_of_match_row .lb h rfl, .inl rfl⟩
      · exact ⟨_, decode_of_match_row .lw h rfl, .inr rfl⟩
    obtain ⟨i, hd, hi⟩ := hrow
    obtain ⟨hm, hvalid, hinvalid⟩ := runEdges_of_exec hk hd hu (load_alone hs hi ha)
    refine ⟨hm, fun hv => (hvalid hv).symm, fun hv => ?_⟩
    obtain ⟨_, hf, hx⟩ := hinvalid hv
    exact ⟨hx, hf⟩
  · have hrow : ∃ i, decode w = .ok i ∧
        (i = .sb rt rs (imm16Of w).toInt ∨ i = .sw rt rs (imm16Of w).toInt) := by
      rcases h with h | h
      · exact ⟨_, decode_of_match_row .sb h rfl, .inl rfl⟩
      · exact ⟨_, decode_of_match_row .sw h rfl, .inr rfl⟩
    obtain ⟨i, hd, hi⟩ := hrow
    obtain ⟨hx, hvalid, hinvalid⟩ := runEdges_of_exec hk hd hu (store_alone hs hwf hi ha)
    refine ⟨hx, fun hv => ?_, fun hv => ?_⟩
    · obtain ⟨hh, hsame, hother⟩ := hvalid hv
      exact ⟨hsame, hh, hother⟩
    · obtain ⟨_, hf, hm⟩ := hinvalid hv
      exact ⟨hm, hf⟩
  · rcases h with h | h | h
    · exact runEdges_of_exec hk (decode_of_match_row .beq h rfl) hu (branch_alone hs (.inl rfl))
    · exact runEdges_of_exec hk (decode_of_match_row .bne h rfl) hu (branch_alone hs (.inr rfl))
    · have hd : decode s.wordInID = .ok .nop := if_pos h
      exact runEdges_of_exec hk hd hu (nop_alone hs)

end Sys2Proof.Machine

/-! SUPPORT. The statements of 42_loadstore.md: a load and a store, alone in the pipeline. -/

namespace Sys2Proof.Machine

/-- The address of an assembler's displacement, written out as R150 and R152 do. -/
theorem effectiveAddress_ofInt (base : Word) (imm : Int) :
    effectiveAddress base imm = base + (BitVec.ofInt 16 imm).signExtend 32 := rfl

/-- Settles O31: the load's MEM cycle reads the byte for its WB cycle to write, or faults. -/
theorem loadsWriteTheZeroExtendedByte : Obligations.LoadsWriteTheZeroExtendedByte := by
  intro rt rs imm i s hs hi a
  have ha : effectiveAddress (s.x.read rs) imm = a := effectiveAddress_ofInt _ _
  exact load_alone hs hi ha

/-- Settles O32: the store's MEM cycle writes the byte into the canonical memory, or faults. -/
theorem storesWriteTheLowByte : Obligations.StoresWriteTheLowByte := by
  intro rt rs imm i s hs hwf hi a
  have ha : effectiveAddress (s.x.read rs) imm = a := effectiveAddress_ofInt _ _
  exact store_alone hs hwf hi ha

end Sys2Proof.Machine

/-! SUPPORT. The statement of 43_branch.md: a branch alone in the pipeline, and what its EX cycle leaves. -/

namespace Sys2Proof.Machine

theorem idOutput_branch {i : Instr} {rs rt : RegIdx} {imm : Int}
    (hi : i = .beq rs rt imm ∨ i = .bne rs rt imm) (s : State) :
    idOutput i s = idStage (outI ctrlBranch imm) rs rt (immBits_15_11 imm) s := by
  rcases hi with rfl | rfl
  · rfl
  · rfl

/-- A record in EX leaves `NA` for the branch target and the zero flag (R111). -/
theorem State.Commits.exmem_noBranchResult {k : Instr} {s t : State} {c : ControlSignals}
    (hs : State.Commits k s t) (hc : s.idex.read.ctrl = .active c) :
    t.exmem.read.branchTarget = none ∧ t.exmem.read.zero = none := by
  obtain ⟨r, _, hex⟩ := exStage_ok_active hc hs.ex
  rw [hex]
  exact ⟨rfl, rfl⟩

/-- Behind the EX cycle of a branch, EX/MEM holds the effective address and names no register, no branch
target and no zero flag (R170). -/
theorem branch_leaves_EX {i k : Instr} {rs rt : RegIdx} {imm : Int} {s s1 s2 : State}
    (hi : i = .beq rs rt imm ∨ i = .bne rs rt imm) (h1 : State.Commits i s s1)
    (h2 : State.Commits k s1 s2) :
    s2.exmem.read.aluResult = effectiveAddress (s.x.read rs) imm ∧
    s2.exmem.read.writeRegNum = none ∧ s2.exmem.read.branchTarget = none ∧
    s2.exmem.read.zero = none := by
  have hid := h1.id.trans (idOutput_branch hi s)
  have hctrl : s1.idex.read.ctrl = .active ctrlBranch := by rw [hid]; rfl
  obtain ⟨_, haddr, hdest, _⟩ := h2.exmem_of_outI hid rfl
  exact ⟨haddr, hdest.trans rfl, h2.exmem_noBranchResult hctrl⟩

/-- Settles O33: the run is that of a branch alone, and its second edge commits the branch's EX cycle. -/
theorem branchesChangeNothing : Obligations.BranchesChangeNothing := by
  intro rs rt imm i s hs hi
  obtain ⟨t, t', e1, e2, hmem⟩ := alone_reaches_MEM i hs
  obtain ⟨t₀, u, e1₀, hrun, hx, hm, hh⟩ := branch_alone hs hi
  obtain rfl : t = t₀ := Host.Outcome.next.inj (e1.symm.trans e1₀)
  rw [runEdges_succ e2] at hrun
  obtain ⟨haddr, hlatched⟩ := branch_leaves_EX hi hmem.id hmem.ex
  rw [effectiveAddress_ofInt] at haddr
  exact ⟨t, t', u, e1, e2, hrun, hh, hx, hm, haddr, hlatched⟩

end Sys2Proof.Machine

/-! SUPPORT. The statement of 44_nop.md: zero words run through a pipeline that holds nothing else. -/

namespace Sys2Proof.Machine

/-- A committed cycle leaves IF's tag: incrPC, or START_PC before the first fetch, and 4 (R105). -/
theorem exec_incrPC {i : Instr} {s t : State} (h : exec i s = .next t) (ht : t.halted = false) :
    t.ifid.read.incrPC = some (s.ifid.read.incrPC.getD s.params.startPC + 4) := by
  obtain ⟨w, _, rfl⟩ := exec_committed h ht
  rfl

/-- The first of `n + 1` fetches adds 4 to the tag, and the rest add `4 * n`. -/
theorem fetchTag_succ (tag : Word) (n : Nat) :
    tag + 4 + 4 * BitVec.ofNat 32 n = tag + 4 * BitVec.ofNat 32 (n + 1) := by
  have hsucc : BitVec.ofNat 32 (n + 1) = BitVec.ofNat 32 n + 1 := BitVec.ofNat_add n 1
  rw [hsucc]
  ring

/-- Behind the cycle of a `nop` in ID, a drained pipeline is drained (R106, R108, R112). -/
theorem State.Commits.drained {s t : State} (c : State.Commits .nop s t) (h : s.Drained) :
    t.Drained where
  idex := by rw [c.id]; rfl
  exmem := c.exmem_of_noOp h.idex
  memwb := (c.memwb_of_noOp h.exmem).1

/-- Zero words through a drained pipeline: each edge fetches one and leaves RegisterFile and MainMemory. Only
where there is no edge does incrPC stay as it is, `NONE` perhaps. -/
theorem State.Trailing.runEdges_drained {n : Nat} {s : State} (h : s.Trailing n) (hd : s.Drained) :
    ∃ t, runEdges n s = .next t ∧ t.halted = false ∧
      t.ifid.read.incrPC = (if n = 0 then s.ifid.read.incrPC
        else some (s.ifid.read.incrPC.getD s.params.startPC + 4 * BitVec.ofNat 32 n)) ∧
      t.x = s.x ∧ t.mem = s.mem := by
  induction n generalizing s with
  | zero => exact ⟨s, rfl, h.running, rfl, rfl, rfl⟩
  | succ n ih =>
    obtain ⟨t, hstep, hc, ht⟩ := h.step_commits hd.canCommit
    obtain ⟨u, hrun, hu, hpc, hx, hm⟩ := ih ht (hc.drained hd)
    have hfetch := exec_incrPC (h.step_eq_exec.symm.trans hstep) ht.running
    refine ⟨u, (runEdges_succ hstep).trans hrun, hu, ?_, hx.trans (hc.x_of_noOp hd.memwb),
      hm.trans (hc.memwb_of_noOp hd.exmem).2⟩
    rw [hpc, hfetch, if_neg n.succ_ne_zero]
    split
    · next hn => subst hn; rfl
    · rw [Option.getD_some, fetchTag_succ]

/-- Settles O34: the reset state is drained, its word in ID is zero, and it has fetched nothing. -/
theorem zeroWordsFromResetOnlyAdvanceIncrPC : Obligations.ZeroWordsFromResetOnlyAdvanceIncrPC := by
  intro p n inputs trace hz
  have htrailing : (State.resetWith p inputs trace).Trailing n := ⟨rfl, rfl, hz⟩
  exact htrailing.runEdges_drained ⟨rfl, rfl, rfl⟩

end Sys2Proof.Machine

/-! SUPPORT. The statements of 60_exceptions.md: the fault each stage raises, which of them a cycle takes, and
what a halted core waits for. -/

namespace Sys2Proof

/-- The opcode table finds no row for an opcode iff no row has that opcode (R76). -/
theorem ofOpcode_eq_none_iff {op : Opcode} :
    IForm.ofOpcode op = none ↔ op ∉ IForm.all.map IForm.opcode := by
  simp [IForm.ofOpcode]

end Sys2Proof

namespace Sys2Proof.Machine

/-! ### ID's faults (R201, R202) -/

/-- A fault of the InstructionDecoder is taken, whatever is in the stages behind ID: nothing else changes
(R205, R206). -/
theorem step_takes_decoder_fault {s : State} {f : FaultRecord} (hr : s.portIn.rst = false)
    (hh : s.halted = false) (hf : instructionDecoder s.wordInID s.ifid.read.incrPC = .error f) :
    ∃ inputs, step s = .next { s with halted := true, fault := some f, inputs := inputs } := by
  cases hd : decode s.wordInID with
  | ok i => simp [instructionDecoder, hd] at hf
  | error r =>
    obtain rfl : decodeFault r = f := by simpa [instructionDecoder, hd] using hf
    exact ⟨s.inputs.tail, step_eq_raiseFault hr hh hd⟩

/-- Settles O14: the decoder rejects an opcode outside the list of R72 and R76. -/
theorem unknownOpcodeHaltsInID : Obligations.UnknownOpcodeHaltsInID := by
  intro s hr hh op hop
  obtain ⟨h0, hrow⟩ := not_or.1 (List.mem_cons.not.1 hop)
  exact step_takes_decoder_fault hr hh
    (instructionDecoder_unknownOpcode h0 (ofOpcode_eq_none_iff.2 hrow) _)

/-- Settles O15: the decoder rejects an R-format word with another function code than its two. -/
theorem unknownFunctionHaltsInID : Obligations.UnknownFunctionHaltsInID := by
  intro s hr hh w hw hop hfn
  have hne : ¬ (functOf w = functAdd ∨ functOf w = functSub) := by
    simpa [functOf, functAdd, functSub] using hfn
  exact step_takes_decoder_fault hr hh
    ((instructionDecoder_rFormat hw hop _).trans (if_neg hne))

/-! ### MEM's fault (R203) -/

/-- MEM faults exactly for a load or a store at or beyond MEM_SIZE. -/
theorem memStage_error_iff {s : State} {f : FaultRecord} :
    memStage s = .error f ↔
      ∃ m, s.exmem.read.ctrl = .active m ∧ (m.memRead = true ∨ m.memWrite = true) ∧
        s.params.memSize ≤ s.exmem.read.aluResult.toNat ∧
        f = .memoryAddressError s.exmem.read.aluResult := by
  constructor
  · intro h
    have haddr := memStage_error h
    cases hc : s.exmem.read.ctrl with
    | noOp => rw [memStage_noOp hc] at h; cases h
    | active m =>
      rw [memStage_active hc] at h
      split at h
      next hbad => exact ⟨m, rfl, hbad.1, Nat.not_lt.1 hbad.2, haddr⟩
      next => cases h
  · rintro ⟨m, hc, ha, hsize, rfl⟩
    rw [memStage_active hc, if_pos ⟨ha, Nat.not_lt.2 hsize⟩]

/-- Of the stages behind ID only MEM raises an address fault. -/
theorem memStage_error_of_addressError {s : State} {a : Word}
    (h : olderStages s = .error (.memoryAddressError a)) :
    memStage s = .error (.memoryAddressError a) := by
  rcases olderStages_error_iff.1 h with hex | ⟨_, hmem | ⟨_, hwb⟩⟩
  · cases exStage_error hex
  · exact hmem
  · cases wbStage_error hwb

/-- Settles O16: MEM's fault is the first where EX completes, and the faults of EX and WB are other ones. -/
theorem invalidAddressHaltsInMEM : Obligations.InvalidAddressHaltsInMEM := by
  intro i s
  constructor
  · intro m hex hc ha hsize
    have hmem := memStage_error_iff.2 ⟨m, hc, ha, hsize, rfl⟩
    exact exec_takes_fault i
      (olderStages_error_iff.2 (.inr ⟨exStage_ok_of_ready hex, .inl hmem⟩))
  · intro t a hnone h ht
    rcases exec_cases h with ⟨w, _, rfl⟩ | ⟨f, hf, rfl⟩
    · cases hnone.symm.trans ht
    · obtain rfl : f = .memoryAddressError a := Option.some.inj ht
      obtain ⟨m, hc, ha, hsize, heq⟩ := memStage_error_iff.1 (memStage_error_of_addressError hf)
      cases heq
      exact ⟨m, hc, ha, rfl, hsize⟩

/-! ### When a cycle commits (R205) -/

/-- Where EX completes, its operands were there (R110). -/
theorem exReady_of_ok {s : State} {e : EXMEM} (h : exStage s = .ok e) : s.exReady := by
  intro c hc
  obtain ⟨r, hr, _⟩ := exStage_ok_active hc h
  cases ho : c.aluOp with
  | byFunction =>
    refine .inl ⟨rfl, ?_⟩
    by_contra hfn
    cases hr.symm.trans (alu_inconsistent (.inl ⟨ho, not_or.1 hfn⟩))
  | effectiveAddress =>
    refine .inr ⟨rfl, Option.ne_none_iff_exists'.1 fun hoff => ?_⟩
    cases hr.symm.trans (alu_inconsistent (.inr ⟨ho, hoff⟩))

/-- Where MEM completes, the address of an access was valid (R203). -/
theorem memReady_of_ok {s : State} {r : MEMWB × List Host.Cell} (h : memStage s = .ok r) :
    s.memReady :=
  fun _ hm => (memStage_ok_active hm h).1

/-- Where WB completes, its value and its register number were there (R118). -/
theorem wbReady_of_ok {s : State} {x : RegFile} (h : wbStage s = .ok x) : s.wbReady := by
  intro b hb hw
  have hok := mt (wbStage_inconsistent hb hw) (by simp [h])
  refine ⟨Option.ne_none_iff_exists'.1 fun hn => hok (.inr (.inl hn)), ?_⟩
  match ht : b.memToReg with
  | none => exact (hok (.inl ht)).elim
  | some false => exact .inl rfl
  | some true =>
    exact .inr ⟨rfl, Option.ne_none_iff_exists'.1 fun hv => hok (.inr (.inr ⟨ht, hv⟩))⟩

/-- The stages behind ID complete exactly when each of them is ready. -/
theorem canCommit_iff {s : State} : s.CanCommit ↔ ∃ w, olderStages s = .ok w := by
  constructor
  · exact olderStages_ok_of_canCommit
  · rintro ⟨w, hw⟩
    obtain ⟨hex, hmem, hwb⟩ := olderStages_ok_iff.1 hw
    exact ⟨exReady_of_ok hex, memReady_of_ok hmem, wbReady_of_ok hwb⟩

/-- Settles O20: an edge that leaves the core running has committed, and the other ways through a cycle take
a fault. -/
theorem cycleCommitsWhollyOrNotAtAll : Obligations.CycleCommitsWhollyOrNotAtAll := by
  intro s t hr hh h
  refine ⟨⟨fun ht => ?_, fun ⟨⟨i, hd⟩, hc⟩ => ?_⟩, fun ht => ?_⟩
  · obtain ⟨i, w, hd, hw, _⟩ := step_committed hr h ht
    exact ⟨⟨i, hd⟩, canCommit_iff.2 ⟨w, hw⟩⟩
  · obtain ⟨u, hu, hrun, _⟩ := exec_completes i hh hc
    rw [step_eq_exec (edgeKind_cycle hr hh) hd, hu] at h
    cases h
    exact hrun
  · rcases step_next_cases h with ⟨hr1, _⟩ | rfl | ⟨f, rfl⟩ | ⟨i, w, _, _, rfl⟩
    · cases hr.symm.trans hr1
    · cases hh.symm.trans ht
    · exact ⟨f, s.inputs.tail, rfl⟩
    · cases hh.symm.trans ht

/-! ### The order of faults (R206) -/

/-- Settles O19: ID's fault is taken before a stage behind it runs, and those stop at the first fault. -/
theorem firstFaultInStageOrderIsReported : Obligations.FirstFaultInStageOrderIsReported := by
  intro s t hr hh h
  refine ⟨fun r hd => ?_, fun i hd => ?_⟩
  · cases h.symm.trans (step_eq_raiseFault hr hh hd)
    rfl
  · have htaken : ∀ {f}, olderStages s = .error f → t.fault = some f := by
      intro f hf
      obtain ⟨inputs, he⟩ := exec_takes_fault i hf
      rw [step_eq_exec (edgeKind_cycle hr hh) hd, he] at h
      cases h
      rfl
    refine ⟨fun f hex => ?_, fun e hex => ⟨fun f hmem => ?_, fun m hmem f hwb => ?_⟩⟩
    · exact htaken (olderStages_error_iff.2 (.inl hex))
    · exact htaken (olderStages_error_iff.2 (.inr ⟨⟨e, hex⟩, .inl hmem⟩))
    · exact htaken (olderStages_error_iff.2 (.inr ⟨⟨e, hex⟩, .inr ⟨⟨m, hmem⟩, hwb⟩⟩))

/-! ### Every edge, and the halted core's (R207) -/

/-- Settles O11, by the kinds of edge. -/
theorem everyEdgeHasANextState : Obligations.EveryEdgeHasANextState := step_answers

/-- Settles O12: an edge without reset is idle, and one that leaves the core running would find it running. -/
theorem haltedCoreWaitsForReset : Obligations.HaltedCoreWaitsForReset := by
  intro s hh
  refine ⟨fun hr => ⟨s.inputs.tail, step_eq_idleEdge hr hh⟩, fun t h ht => ?_⟩
  by_contra hr
  cases hh.symm.trans (running_before (Bool.eq_false_iff.2 hr) h ht)

end Sys2Proof.Machine

/-! SUPPORT. The statements of 70_reset_and_hazards.md: what reset loads, the effect of an instruction whatever
else is in flight, and which of the words behind it can see its register write. -/

namespace Sys2Proof.Machine

/-! ### Reset (R230, R231, R243) -/

/-- The seed of every entry but 0 (R231). -/
theorem rfInit_toNat {r : RegIdx} (hr : r ≠ 0) :
    Config.rfInit r.toNat = 0x100#32 + r.setWidth 32 := by
  have hn : r.toNat ≠ 0 := fun h => hr (BitVec.eq_of_toNat_eq h)
  rw [Config.rfInit, if_neg hn, BitVec.ofNat_add, BitVec.ofNat_toNat]

/-- Settles O7: the registers are RF_INIT, and no cell is listed over MEM_INIT. -/
theorem resetLeavesTheTabledValues : Obligations.ResetLeavesTheTabledValues := by
  refine ⟨rfl, fun p inputs trace => ⟨RegFile.init_read 0, fun r hr => ?_, fun a _ => rfl, ?_⟩⟩
  · exact (RegFile.init_read r).trans (rfInit_toNat hr)
  · exact ⟨rfl, rfl, rfl, rfl, rfl, rfl, rfl, rfl, rfl, rfl, rfl⟩

/-- Settles O8: an edge with `rst = 1` is a reset edge, whatever the state. -/
theorem rstEdgeLoadsTheResetState : Obligations.RstEdgeLoadsTheResetState :=
  fun s hr => ⟨s.inputs.tail, s.trace, step_eq_resetEdge hr⟩

/-- Settles O47: `State.reset` is one of the reset states. -/
theorem resetMeetsTheInvariants : Obligations.ResetMeetsTheInvariants :=
  ⟨resetWith_inv _ _ _, resetWith_tagInv _ _ _,
    fun p inputs trace => ⟨resetWith_inv p inputs trace, resetWith_tagInv p inputs trace⟩⟩

/-! ### The effect of an instruction, whatever else is in flight (R234, R235, R237) -/

section
variable {i k k' k'' : Instr} {s s1 s2 s3 s4 : State}

/-- In its MEM cycle, an I-format word without `memWrite` leaves MainMemory (R112, R114). -/
theorem outI_keeps_mem {c : ControlSignals} {rs rt bits : RegIdx} {imm : Int}
    (hi : idOutput i s = idStage (outI c imm) rs rt bits s) (hop : c.aluOp = .effectiveAddress)
    (hw : c.memWrite = false) (h1 : State.Commits i s s1) (h2 : State.Commits k s1 s2)
    (h3 : State.Commits k' s2 s3) : s3.mem = s2.mem := by
  obtain ⟨hctrl, _⟩ := h2.exmem_of_outI (h1.id.trans hi) hop
  exact (h3.memwb_of_noStore hctrl hw).1

/-- In its WB cycle, an I-format word without `regWrite` leaves the RegisterFile (R117). -/
theorem outI_keeps_x {c : ControlSignals} {rs rt bits : RegIdx} {imm : Int}
    (hi : idOutput i s = idStage (outI c imm) rs rt bits s) (hop : c.aluOp = .effectiveAddress)
    (hw : c.regWrite = false) (h1 : State.Commits i s s1) (h2 : State.Commits k s1 s2)
    (h3 : State.Commits k' s2 s3) (h4 : State.Commits k'' s3 s4) : s4.x = s3.x := by
  obtain ⟨hctrl, _⟩ := h2.exmem_of_outI (h1.id.trans hi) hop
  exact h3.x_of_noRegWrite h4 hctrl hw

/-- The no-op passes every stage as a no-op, and leaves both (R106, R108, R112, R116). -/
theorem nop_in_flight (h1 : State.Commits .nop s s1) (h2 : State.Commits k s1 s2)
    (h3 : State.Commits k' s2 s3) (h4 : State.Commits k'' s3 s4) :
    s3.mem = s2.mem ∧ s4.x = s3.x := by
  have hid : s1.idex.read.ctrl = .noOp := by rw [h1.id]; rfl
  obtain ⟨hwb, hmem⟩ := h3.memwb_of_noOp (h2.exmem_of_noOp hid)
  exact ⟨hmem, h4.x_of_noOp hwb⟩

/-- A load's byte reaches its register, and MainMemory stays (R150, R151). -/
theorem load_effect {rt rs : RegIdx} {imm : Int} (hi : i = .lb rt rs imm ∨ i = .lw rt rs imm)
    (h1 : State.Commits i s s1) (h2 : State.Commits k s1 s2) (h3 : State.Commits k' s2 s3)
    (h4 : State.Commits k'' s3 s4) :
    s3.mem = s2.mem ∧
    s4.x = s3.x.write rt ((s2.readByte (effectiveAddress (s.x.read rs) imm).toNat).setWidth 32) :=
  ⟨outI_keeps_mem (idOutput_load hi s) rfl rfl h1 h2 h3, load_in_flight hi h1 h2 h3 h4⟩

/-- A store's byte reaches MainMemory, and the RegisterFile stays (R152, R153). -/
theorem store_effect {rt rs : RegIdx} {imm : Int} (hi : i = .sb rt rs imm ∨ i = .sw rt rs imm)
    (h1 : State.Commits i s s1) (h2 : State.Commits k s1 s2) (h3 : State.Commits k' s2 s3)
    (h4 : State.Commits k'' s3 s4) :
    s4.x = s3.x ∧
    s3.mem = Memory.write s.params (effectiveAddress (s.x.read rs) imm).toNat
      ((s.x.read rt).extractLsb' 0 8) s2.mem := by
  refine ⟨outI_keeps_x (idOutput_store hi s) rfl rfl h1 h2 h3 h4, ?_⟩
  rw [store_in_flight hi h1 h2 h3, h2.params, h1.params]

/-- A branch leaves both (R170, R171). -/
theorem branch_effect {rs rt : RegIdx} {imm : Int} (hi : i = .beq rs rt imm ∨ i = .bne rs rt imm)
    (h1 : State.Commits i s s1) (h2 : State.Commits k s1 s2) (h3 : State.Commits k' s2 s3)
    (h4 : State.Commits k'' s3 s4) : s3.mem = s2.mem ∧ s4.x = s3.x :=
  ⟨outI_keeps_mem (idOutput_branch hi s) rfl rfl h1 h2 h3,
    outI_keeps_x (idOutput_branch hi s) rfl rfl h1 h2 h3 h4⟩

end

/-- Settles O50: the core ran at every one of the four edges, so each committed its cycle. -/
theorem everyInstructionTakesEffectInFlight : Obligations.EveryInstructionTakesEffectInFlight := by
  intro i s s1 s2 s3 s4 _ hl e1 e2 e3 e4 hh4
  have hl1 := rstLow_after_exec hl e1
  have hl2 := rstLow_after_step hl1 e2
  have hl3 := rstLow_after_step hl2 e3
  obtain ⟨hh3, _, _, c4⟩ := step_commits hl3 e4 hh4
  obtain ⟨hh2, _, _, c3⟩ := step_commits hl2 e3 hh3
  obtain ⟨hh1, _, _, c2⟩ := step_commits hl1 e2 hh2
  have c1 := exec_commits e1 hh1
  cases i with
  | add rd rs rt sh => exact arithmetic_in_flight rfl rfl c1 c2 c3 c4
  | sub rd rs rt sh => exact arithmetic_in_flight rfl rfl c1 c2 c3 c4
  | lb rt rs imm => exact load_effect (.inl rfl) c1 c2 c3 c4
  | lw rt rs imm => exact load_effect (.inr rfl) c1 c2 c3 c4
  | sb rt rs imm => exact store_effect (.inl rfl) c1 c2 c3 c4
  | sw rt rs imm => exact store_effect (.inr rfl) c1 c2 c3 c4
  | beq rs rt imm => exact branch_effect (.inl rfl) c1 c2 c3 c4
  | bne rs rt imm => exact branch_effect (.inr rfl) c1 c2 c3 c4
  | nop => exact nop_in_flight c1 c2 c3 c4

/-! ### Two runs that differ in the word in ID (R122, R235) -/

/-- WB looks at the RegisterFile and the read side of MEM/WB only (R116 to R118). -/
theorem wbStage_congr {s t : State} (hx : t.x = s.x) (hwb : t.memwb.read = s.memwb.read) :
    wbStage t = wbStage s := by
  simp only [wbStage, hx, hwb]

/-- `s` and `t` hold the same wherever MEM and WB look: they may differ in the words in ID and EX. -/
structure SameInMEMAndWB (s t : State) : Prop where
  x      : t.x = s.x
  mem    : t.mem = s.mem
  exmem  : t.exmem = s.exmem
  memwb  : t.memwb = s.memwb
  params : t.params = s.params

/-- MEM looks at nothing else (R112 to R115). -/
theorem SameInMEMAndWB.memStage_eq {s t : State} (h : SameInMEMAndWB s t) :
    memStage t = memStage s := by
  have hctrl : t.exmem.read.ctrl = s.exmem.read.ctrl := by rw [h.exmem]
  cases hc : s.exmem.read.ctrl with
  | noOp => rw [memStage_noOp hc, memStage_noOp (hctrl.trans hc), h.memwb, h.mem]
  | active m =>
    rw [memStage_active hc, memStage_active (hctrl.trans hc)]
    simp only [State.readByte, h.exmem, h.mem, h.params]

theorem SameInMEMAndWB.wbStage_eq {s t : State} (h : SameInMEMAndWB s t) : wbStage t = wbStage s :=
  wbStage_congr h.x (congrArg Buffered.read h.memwb)

/-- EX, MEM and WB do the same behind either of two instructions in ID, which leave a difference in ID/EX
and the emitted record only. -/
theorem exec_sameInMEMAndWB {i j : Instr} {s s1 t1 : State} (hs : exec i s = .next s1)
    (hs1 : s1.halted = false) (ht : exec j s = .next t1) (ht1 : t1.halted = false) :
    SameInMEMAndWB s1 t1 := by
  obtain ⟨w, hw, rfl⟩ := exec_committed hs hs1
  obtain ⟨w', hw', rfl⟩ := exec_committed ht ht1
  cases hw.symm.trans hw'
  exact ⟨rfl, rfl, rfl, rfl, rfl⟩

section
variable {k l : Instr} {s s' t t' : State}

theorem State.Commits.x_congr (hs : State.Commits k s s') (ht : State.Commits l t t')
    (h : wbStage t = wbStage s) : t'.x = s'.x :=
  Except.ok.inj (ht.wb.symm.trans (h.trans hs.wb))

theorem State.Commits.memwb_congr (hs : State.Commits k s s') (ht : State.Commits l t t')
    (h : memStage t = memStage s) : t'.memwb.read = s'.memwb.read :=
  congrArg Prod.fst (Except.ok.inj (ht.mem.symm.trans (h.trans hs.mem)))

end

/-- Settles O52: the first edge's WB is that of one state; the second finds the same words in MEM and WB, so
that the third finds the same word in WB. -/
theorem nextThreeWordsReadTheOldRegisters : Obligations.NextThreeWordsReadTheOldRegisters := by
  intro i j s s1 s2 s3 t1 t2 t3 _ hl e1 e2 e3 hs3 f1 f2 f3 ht3
  have hls1 := rstLow_after_exec hl e1
  have hlt1 := rstLow_after_exec hl f1
  obtain ⟨hs2, _, _, c3⟩ := step_commits (rstLow_after_step hls1 e2) e3 hs3
  obtain ⟨hs1, _, _, c2⟩ := step_commits hls1 e2 hs2
  obtain ⟨ht2, _, _, d3⟩ := step_commits (rstLow_after_step hlt1 f2) f3 ht3
  obtain ⟨ht1, _, _, d2⟩ := step_commits hlt1 f2 ht2
  have hsame := exec_sameInMEMAndWB e1 hs1 f1 ht1
  have hx2 : t2.x = s2.x := c2.x_congr d2 hsame.wbStage_eq
  have hwb2 : t2.memwb.read = s2.memwb.read := c2.memwb_congr d2 hsame.memStage_eq
  exact ⟨hsame.x, hx2, c3.x_congr d3 (wbStage_congr hx2 hwb2)⟩

end Sys2Proof.Machine
